-- ==== Sys2Proof/Word.lean ====
section
/-! DEFINITION. The machine's word types (spec 00_scope.md R8) and the register index. -/

namespace Sys2Proof

/-- `Bits32` of R8: every register value, the pc, every address and every ALU result. -/
abbrev Word := BitVec 32

/-- One byte of memory (20_memory.md R50). -/
abbrev Byte := BitVec 8

/-- A general register's index, 0 to 31 (10_state.md R20). -/
abbrev RegIdx := Fin 32

end Sys2Proof
end

