-- ==== Sys2Proof/Config.lean ====
section
/-! DEFINITION. The implementation parameters of 00_scope.md R6. The open ones are the fields of `Config`; the fixed
ones are constants. -/

namespace Sys2Proof

/-- MEMORY_MODE of R6 and 20_memory.md R52. -/
inductive MemoryMode where
  | strict
  | sparse
deriving DecidableEq, Repr

/-- FETCH_BYTE_ORDER of R6 and 20_memory.md R58: which byte of a fetched word lies at the lowest address. -/
inductive ByteOrder where
  | big
  | little
deriving DecidableEq, Repr

/-- The OPEN parameters of R6. IMAGE, the fourth, is an argument of reset (`State.resetWith`). -/
structure Config where
  /-- MEMORY_MODE. -/
  memoryMode : MemoryMode
  /-- MEM_SIZE, the number of bytes present in strict mode. -/
  memSize : Nat
  /-- FETCH_BYTE_ORDER. -/
  fetchOrder : ByteOrder
deriving DecidableEq, Repr

/-- The number of addresses a 32-bit address names (R6). -/
abbrev addressSpace : Nat := 4294967296

/-- R6 and R53: `1 <= MEM_SIZE <= 2^32`. -/
def Config.wf (c : Config) : Bool := decide (1 ≤ c.memSize) && decide (c.memSize ≤ addressSpace)

/-- The parameters the model takes unless told otherwise: `strict` (R6, decision D6) and big-endian fetch (R6, decision
D5). MEM_SIZE has no default in the spec: DESIGN CHOICE, the whole address space (log entry 2). -/
def Config.default : Config where
  memoryMode := .strict
  memSize := addressSpace
  fetchOrder := .big

/-- BASE of R6: the architectural address of engine address 0. The loader subtracts it (20_memory.md R51). -/
def base : Word := 0x80000000

/-- ENTRY of R6: the first pc. -/
def entry : Word := 0

/-- SUCCESS_REG of R6: register 10, "a0". -/
def successReg : RegIdx := 10

/-- SUCCESS_VALUE of R6. -/
def successValue : Word := 1

end Sys2Proof
end

