-- ==== Sys2Proof/Machine/State.lean ====
section
/-! DEFINITION. The whole state (10_state.md R36), the reasons a step stops, and reset. -/

namespace Sys2Proof.Machine

/-- Memory as data: (address, byte) pairs, addresses strictly rising, no entry equal to `unlistedByte`. The keys are
engine addresses (20_memory.md R50, R51). -/
abbrev Memory := List Host.Cell

/-- What an address that is not listed reads as: 0 (20_memory.md R54, R55). -/
def unlistedByte : Byte := 0

/-- The canonical form from address `lo` up. -/
def Memory.wfFrom : Nat → Memory → Bool
  | _, [] => true
  | lo, (a, b) :: m => decide (lo ≤ a) && (b != unlistedByte) && Memory.wfFrom (a + 1) m

/-- The canonical form. -/
def Memory.wf (m : Memory) : Bool := Memory.wfFrom 0 m

/-- The kinds of access of `mem_kind` (10_state.md R44, 60_exceptions.md R201). -/
inductive AccessKind where
  | fetch
  | load
  | store
deriving DecidableEq, Repr

/-- The two error kinds with their records (60_exceptions.md R201, R202, R204, R209). -/
inductive ErrorRecord where
  | unimplementedInstruction (pc : Word) (opcode : BitVec 7) (funct3 : BitVec 3) (funct7 : BitVec 7)
  | memoryOutOfRange (pc : Word) (kind : AccessKind) (addr : Word)
deriving DecidableEq, Repr

/-- The run status of 10_state.md R29. -/
inductive Status where
  | running
  | halted
  | error (e : ErrorRecord)
deriving DecidableEq, Repr

/-- The state of R36. `config` is the model's own field: the parameters the step reads and nothing writes (log entry 1). -/
structure State where
  /-- The register file (R20). Slot 0 is never read and never written (R21, R22; log entry 7). -/
  regs : Vector Word 32
  /-- The program counter (R25), an engine-relative address. -/
  pc : Word
  /-- The one memory (20_memory.md R50). -/
  mem : Memory
  /-- The run status (R29). -/
  status : Status
  /-- MEMORY_MODE, MEM_SIZE, FETCH_BYTE_ORDER (00_scope.md R6). -/
  config : Config
deriving DecidableEq, Repr

/-- Why a step gives no next state. -/
inductive Fault where
  /-- Raised by `step` alone, in a state whose status is Halted or Error: no cycle happens there (10_state.md R29,
  40_cycle_and_datapath.md R120). Safe: the machine stops where the block stops (log entry 3). -/
  | notRunning
deriving DecidableEq, Repr

/-- Why an instruction has no meaning. No arm of `exec` answers one. -/
inductive Refusal where
  /-- An instruction of the table with no meaning yet, by its mnemonic. Safe. -/
  | notModelled (mnemonic : String)
deriving DecidableEq, Repr

/-- An outcome of this machine. -/
abbrev Outcome := Host.Outcome State Fault Refusal

/-- The state after reset with no image and the default parameters (R37; 70_reset_and_hazards.md R231). `State.resetWith`
takes any image and parameters. -/
def State.reset : State where
  regs := Vector.replicate 32 0
  pc := entry
  mem := []
  status := .running
  config := Config.default

end Sys2Proof.Machine
end

