-- ==== Sys2Proof/Machine/Flags.lean ====
section
/-! DEFINITION. The block has no flags and no condition codes (10_state.md R32). The one condition an instruction
computes is the equality comparator. -/

namespace Sys2Proof.Machine

/-- `cmp_eq` of 40_cycle_and_datapath.md R133: the same 32-bit pattern. -/
def cmpEq (a b : Word) : Bool := a == b

end Sys2Proof.Machine
end

