-- ==== Sys2Proof/Syntax.lean ====
section
/-! DEFINITION. The instructions: one constructor per row of spec/opcode_table.json (30_encoding.md R96), with the
operands of R98, and the decoder's tags (10_state.md R41). -/

namespace Sys2Proof

/-- The six formats of 30_encoding.md R82. -/
inductive Format where
  | R
  | I
  | S
  | B
  | U
  | J
deriving DecidableEq, Repr

/-- The values of `dec_op`, 10_state.md R41. -/
inductive Op where
  | jal
  | ecall
  | beq
  | bne
  | lw
  | sw
  | addi
  | slli
  | ori
  | lui
  | auipc
  | xor
  | srl
  | rem
  | gap
  | unimpl
deriving DecidableEq, Repr

/-- The format of an operation: the column "format" of 30_encoding.md R96 (none for GAP and UNIMPL, R97). -/
def Op.format : Op → Option Format
  | .jal => some .J
  | .ecall => some .I
  | .beq => some .B
  | .bne => some .B
  | .lw => some .I
  | .sw => some .S
  | .addi => some .I
  | .slli => some .I
  | .ori => some .I
  | .lui => some .U
  | .auipc => some .U
  | .xor => some .R
  | .srl => some .R
  | .rem => some .R
  | .gap => none
  | .unimpl => none

/-- An instruction. Register operands are indexes; an immediate operand is the format's immediate FIELD, before
sign extension: 12 bits for I and S, 13 (bit 0 zero) for B, 20 for U, 21 (bit 0 zero) for J (30_encoding.md R84 to R88). -/
inductive Instr where
  /-- 41_control_transfer.md R150. -/
  | jal (rd : RegIdx) (imm : BitVec 21)
  /-- 42_environment.md R160 and R161. No field is used; `unexamined` is `w[31:7]`, kept so that every SYSTEM-opcode word
  has an encoding (log entry 8). -/
  | ecall (unexamined : BitVec 25)
  /-- 41_control_transfer.md R151. -/
  | beq (rs1 rs2 : RegIdx) (imm : BitVec 13)
  /-- 41_control_transfer.md R152. -/
  | bne (rs1 rs2 : RegIdx) (imm : BitVec 13)
  /-- 43_load_store.md R165. -/
  | lw (rd rs1 : RegIdx) (imm : BitVec 12)
  /-- 43_load_store.md R166. -/
  | sw (rs1 rs2 : RegIdx) (imm : BitVec 12)
  /-- 44_integer_immediate.md R175. -/
  | addi (rd rs1 : RegIdx) (imm : BitVec 12)
  /-- 44_integer_immediate.md R176. The immediate is the whole `imm_I`; the shift amount is its low five bits. -/
  | slli (rd rs1 : RegIdx) (imm : BitVec 12)
  /-- 44_integer_immediate.md R177. -/
  | ori (rd rs1 : RegIdx) (imm : BitVec 12)
  /-- 44_integer_immediate.md R178. -/
  | lui (rd : RegIdx) (imm : BitVec 20)
  /-- 44_integer_immediate.md R179. -/
  | auipc (rd : RegIdx) (imm : BitVec 20)
  /-- 45_integer_register.md R190. -/
  | xor (rd rs1 rs2 : RegIdx)
  /-- 45_integer_register.md R191. -/
  | srl (rd rs1 rs2 : RegIdx)
  /-- 45_integer_register.md R192. -/
  | rem (rd rs1 rs2 : RegIdx)
  /-- The all-zero word, 40_cycle_and_datapath.md R122. -/
  | gap
deriving DecidableEq, Repr

/-- The operation of an instruction. -/
def Instr.op : Instr → Op
  | .jal _ _ => .jal
  | .ecall _ => .ecall
  | .beq _ _ _ => .beq
  | .bne _ _ _ => .bne
  | .lw _ _ _ => .lw
  | .sw _ _ _ => .sw
  | .addi _ _ _ => .addi
  | .slli _ _ _ => .slli
  | .ori _ _ _ => .ori
  | .lui _ _ => .lui
  | .auipc _ _ => .auipc
  | .xor _ _ _ => .xor
  | .srl _ _ _ => .srl
  | .rem _ _ _ => .rem
  | .gap => .gap

/-- The register an instruction writes: the column "writes" of 10_state.md R24. -/
def Instr.writes : Instr → Option RegIdx
  | .jal rd _ => some rd
  | .ecall _ => none
  | .beq _ _ _ => none
  | .bne _ _ _ => none
  | .lw rd _ _ => some rd
  | .sw _ _ _ => none
  | .addi rd _ _ => some rd
  | .slli rd _ _ => some rd
  | .ori rd _ _ => some rd
  | .lui rd _ => some rd
  | .auipc rd _ => some rd
  | .xor rd _ _ => some rd
  | .srl rd _ _ => some rd
  | .rem rd _ _ => some rd
  | .gap => none

/-- The registers an instruction reads: the column "reads" of 10_state.md R24. -/
def Instr.reads : Instr → List RegIdx
  | .jal _ _ => []
  | .ecall _ => []
  | .beq rs1 rs2 _ => [rs1, rs2]
  | .bne rs1 rs2 _ => [rs1, rs2]
  | .lw _ rs1 _ => [rs1]
  | .sw rs1 rs2 _ => [rs1, rs2]
  | .addi _ rs1 _ => [rs1]
  | .slli _ rs1 _ => [rs1]
  | .ori _ rs1 _ => [rs1]
  | .lui _ _ => []
  | .auipc _ _ => []
  | .xor _ rs1 rs2 => [rs1, rs2]
  | .srl _ rs1 rs2 => [rs1, rs2]
  | .rem _ rs1 rs2 => [rs1, rs2]
  | .gap => []

end Sys2Proof
end

