-- ==== Sys2Proof/WellFormed.lean ====
section
/-! DEFINITION. Which terms of `Instr` have an encoding: a J or B immediate has bit 0 zero (30_encoding.md R86, R88).
Every other operand is well formed at every value its type has. -/

namespace Sys2Proof

/-- Bit 0 of a branch or jump offset "is always 0" (30_encoding.md R86, R88). -/
def evenOffset {n : Nat} (imm : BitVec n) : Bool := !imm.getLsbD 0

/-- The check. -/
def Instr.wellFormed : Instr → Bool
  | .jal _ imm => evenOffset imm
  | .ecall _ => true
  | .beq _ _ imm => evenOffset imm
  | .bne _ _ imm => evenOffset imm
  | .lw _ _ _ => true
  | .sw _ _ _ => true
  | .addi _ _ _ => true
  | .slli _ _ _ => true
  | .ori _ _ _ => true
  | .lui _ _ => true
  | .auipc _ _ => true
  | .xor _ _ _ => true
  | .srl _ _ _ => true
  | .rem _ _ _ => true
  | .gap => true

end Sys2Proof
end

