-- ==== Sys2Proof/Decode.lean ====
section
/-! DEFINITION. The decoder of 30_encoding.md: fixed fields, immediates, the dispatch tree, the instruction record; byte
order; and the encoder. -/

namespace Sys2Proof

/-! ## Fixed fields (R81) -/

def opcodeOf (w : Word) : BitVec 7 := w.extractLsb' 0 7
def funct3Of (w : Word) : BitVec 3 := w.extractLsb' 12 3
def funct7Of (w : Word) : BitVec 7 := w.extractLsb' 25 7
def rdOf (w : Word) : RegIdx := (w.extractLsb' 7 5).toFin
def rs1Of (w : Word) : RegIdx := (w.extractLsb' 15 5).toFin
def rs2Of (w : Word) : RegIdx := (w.extractLsb' 20 5).toFin

/-! ## Immediate fields, before sign extension (R84 to R88) -/

/-- R84: `w[31:20]`. -/
def fieldI (w : Word) : BitVec 12 := w.extractLsb' 20 12

/-- R85: `{w[31:25], w[11:7]}`. -/
def fieldS (w : Word) : BitVec 12 := w.extractLsb' 25 7 ++ w.extractLsb' 7 5

/-- R86: `{w[31], w[7], w[30:25], w[11:8], 0}`. -/
def fieldB (w : Word) : BitVec 13 :=
  w.extractLsb' 31 1 ++ w.extractLsb' 7 1 ++ w.extractLsb' 25 6 ++ w.extractLsb' 8 4 ++ 0#1

/-- R87: `w[31:12]`. -/
def fieldU (w : Word) : BitVec 20 := w.extractLsb' 12 20

/-- R88: `{w[31], w[19:12], w[20], w[30:21], 0}`. -/
def fieldJ (w : Word) : BitVec 21 :=
  w.extractLsb' 31 1 ++ w.extractLsb' 12 8 ++ w.extractLsb' 20 1 ++ w.extractLsb' 21 10 ++ 0#1

/-! ## Extension (00_scope.md R10) -/

/-- `sext_N` of R10. -/
def sext {n : Nat} (f : BitVec n) : Word := f.signExtend 32

/-- `zext_N` of R10. -/
def zext {n : Nat} (f : BitVec n) : Word := f.zeroExtend 32

/-- `dec_imm`: the immediate a format decodes to (R84 to R89). U is unshifted and unsigned (R87); R has none (R89). -/
def immOf (f : Format) (w : Word) : Word :=
  match f with
  | .R => 0
  | .I => sext (fieldI w)
  | .S => sext (fieldS w)
  | .B => sext (fieldB w)
  | .U => zext (fieldU w)
  | .J => sext (fieldJ w)

/-! ## The dispatch tree (R90 to R97) -/

/-- The funct3 level under BRANCH (R93). -/
def branchOp (funct3 : BitVec 3) : Op :=
  if funct3 = 0b000 then .beq else if funct3 = 0b001 then .bne else .unimpl

/-- The funct3 level under OP-IMM (R93). funct7 is not examined (R95). -/
def opImmOp (funct3 : BitVec 3) : Op :=
  if funct3 = 0b000 then .addi else if funct3 = 0b001 then .slli else if funct3 = 0b110 then .ori else .unimpl

/-- The funct3 and funct7 levels under OP (R93, R94). -/
def opOp (funct3 : BitVec 3) (funct7 : BitVec 7) : Op :=
  if funct3 = 0b100 ∧ funct7 = 0b0000000 then .xor
  else if funct3 = 0b101 ∧ funct7 = 0b0000000 then .srl
  else if funct3 = 0b110 ∧ funct7 = 0b0000001 then .rem
  else .unimpl

/-- The opcode level (R92), with LOAD and STORE's one funct3 (R93). -/
def groupOp (opcode : BitVec 7) (funct3 : BitVec 3) (funct7 : BitVec 7) : Op :=
  if opcode = 0b1101111 then .jal
  else if opcode = 0b1110011 then .ecall
  else if opcode = 0b1100011 then branchOp funct3
  else if opcode = 0b0000011 then (if funct3 = 0b010 then .lw else .unimpl)
  else if opcode = 0b0100011 then (if funct3 = 0b010 then .sw else .unimpl)
  else if opcode = 0b0010011 then opImmOp funct3
  else if opcode = 0b0110111 then .lui
  else if opcode = 0b0010111 then .auipc
  else if opcode = 0b0110011 then opOp funct3 funct7
  else .unimpl

/-- The operation of R97: the all-zero word first (R99), then the tree; everything else is UNIMPL (R100). -/
def dispatchOp (w : Word) : Op := if w = 0 then .gap else groupOp (opcodeOf w) (funct3Of w) (funct7Of w)

/-- `decode(w)` of R97: the operation and its format, which the dispatcher gives together (R82). -/
def dispatch (w : Word) : Op × Option Format := (dispatchOp w, (dispatchOp w).format)

/-- The instruction record of R91. It lasts one cycle (10_state.md R31). -/
structure InstrRecord where
  rd : RegIdx
  rs1 : RegIdx
  rs2 : RegIdx
  imm : Word
deriving DecidableEq, Repr

/-- The record of a word under a format (R90 step 4, R91). -/
def record (f : Format) (w : Word) : InstrRecord where
  rd := rdOf w
  rs1 := rs1Of w
  rs2 := rs2Of w
  imm := immOf f w

/-- What the decoder answers: an instruction, or the fields of a word that is none (60_exceptions.md R202). -/
inductive Decoded where
  | instr (i : Instr)
  /-- UNIMPL (R100), with the raw fields the error record reports. -/
  | unimplemented (opcode : BitVec 7) (funct3 : BitVec 3) (funct7 : BitVec 7)
deriving DecidableEq, Repr

/-- The decoder on one word, total: the operation of R97 with the operands of R98. -/
def decode (w : Word) : Decoded :=
  match dispatchOp w with
  | .jal => .instr (.jal (rdOf w) (fieldJ w))
  | .ecall => .instr (.ecall (w.extractLsb' 7 25))
  | .beq => .instr (.beq (rs1Of w) (rs2Of w) (fieldB w))
  | .bne => .instr (.bne (rs1Of w) (rs2Of w) (fieldB w))
  | .lw => .instr (.lw (rdOf w) (rs1Of w) (fieldI w))
  | .sw => .instr (.sw (rs1Of w) (rs2Of w) (fieldS w))
  | .addi => .instr (.addi (rdOf w) (rs1Of w) (fieldI w))
  | .slli => .instr (.slli (rdOf w) (rs1Of w) (fieldI w))
  | .ori => .instr (.ori (rdOf w) (rs1Of w) (fieldI w))
  | .lui => .instr (.lui (rdOf w) (fieldU w))
  | .auipc => .instr (.auipc (rdOf w) (fieldU w))
  | .xor => .instr (.xor (rdOf w) (rs1Of w) (rs2Of w))
  | .srl => .instr (.srl (rdOf w) (rs1Of w) (rs2Of w))
  | .rem => .instr (.rem (rdOf w) (rs1Of w) (rs2Of w))
  | .gap => .instr .gap
  | .unimpl => .unimplemented (opcodeOf w) (funct3Of w) (funct7Of w)

/-! ## Bytes and words (20_memory.md R56 to R59) -/

/-- The word assembled from four bytes, `b0` at the lowest address (R56, R58). -/
def wordOfBytes (o : ByteOrder) (b0 b1 b2 b3 : Byte) : Word :=
  match o with
  | .big => b0 ++ b1 ++ b2 ++ b3
  | .little => b3 ++ b2 ++ b1 ++ b0

/-- The byte of a word that lies `i` addresses (0 to 3) above its first (R57, R58). -/
def byteOfWord (o : ByteOrder) (w : Word) (i : Nat) : Byte :=
  match o with
  | .big => w.extractLsb' (8 * (3 - i)) 8
  | .little => w.extractLsb' (8 * i) 8

/-- A word's four bytes, the one at the lowest address first. -/
def bytesOfWord (o : ByteOrder) (w : Word) : List Byte :=
  [byteOfWord o w 0, byteOfWord o w 1, byteOfWord o w 2, byteOfWord o w 3]

/-- The decoder on bytes, total on every list: the first four are one word (R80), and the rest is given back; a shorter
list holds no instruction. -/
def decodeBytes (o : ByteOrder) : List Byte → Option (Decoded × List Byte)
  | b0 :: b1 :: b2 :: b3 :: rest => some (decode (wordOfBytes o b0 b1 b2 b3), rest)
  | _ => none

/-- The instruction the decoder reads from the word numbered as spec/opcode_table.json numbers it: one 32-bit word, its
bits above `nbits` zero, laid out in the default fetch order. -/
def decodeTableWord (nbits w : Nat) : Option Instr :=
  match decodeBytes Config.default.fetchOrder (bytesOfWord Config.default.fetchOrder (BitVec.ofNat 32 (w % 2 ^ nbits))) with
  | some (.instr i, _) => some i
  | some (.unimplemented _ _ _, _) => none
  | none => none

/-! ## The opcode table (R96) -/

/-- One row of R96: a word `w` is the row's if `w & mask = pattern`. -/
structure Row where
  op : Op
  format : Option Format
  pattern : Word
  mask : Word
deriving DecidableEq, Repr

/-- R96's match test. -/
def Row.matches (r : Row) (w : Word) : Bool := w &&& r.mask == r.pattern

/-- The fourteen rows of R96 and the row GAP of spec/opcode_table.json. -/
def opcodeTable : List Row :=
  [⟨.jal, some .J, 0x0000006F, 0x0000007F⟩, ⟨.ecall, some .I, 0x00000073, 0x0000007F⟩,
   ⟨.beq, some .B, 0x00000063, 0x0000707F⟩, ⟨.bne, some .B, 0x00001063, 0x0000707F⟩,
   ⟨.lw, some .I, 0x00002003, 0x0000707F⟩] ++
  [⟨.sw, some .S, 0x00002023, 0x0000707F⟩, ⟨.addi, some .I, 0x00000013, 0x0000707F⟩,
   ⟨.slli, some .I, 0x00001013, 0x0000707F⟩, ⟨.ori, some .I, 0x00006013, 0x0000707F⟩,
   ⟨.lui, some .U, 0x00000037, 0x0000007F⟩] ++
  [⟨.auipc, some .U, 0x00000017, 0x0000007F⟩, ⟨.xor, some .R, 0x00004033, 0xFE00707F⟩,
   ⟨.srl, some .R, 0x00005033, 0xFE00707F⟩, ⟨.rem, some .R, 0x02006033, 0xFE00707F⟩,
   ⟨.gap, none, 0x00000000, 0xFFFFFFFF⟩]

/-! ## The encoder, from the layouts of R83 -/

/-- A register index as its 5-bit field. -/
def regBits (r : RegIdx) : BitVec 5 := BitVec.ofFin r

def encodeR (funct7 : BitVec 7) (rs2 rs1 : RegIdx) (funct3 : BitVec 3) (rd : RegIdx) (opcode : BitVec 7) : Word :=
  funct7 ++ regBits rs2 ++ regBits rs1 ++ funct3 ++ regBits rd ++ opcode

def encodeI (imm : BitVec 12) (rs1 : RegIdx) (funct3 : BitVec 3) (rd : RegIdx) (opcode : BitVec 7) : Word :=
  imm ++ regBits rs1 ++ funct3 ++ regBits rd ++ opcode

def encodeS (imm : BitVec 12) (rs2 rs1 : RegIdx) (funct3 : BitVec 3) (opcode : BitVec 7) : Word :=
  imm.extractLsb' 5 7 ++ regBits rs2 ++ regBits rs1 ++ funct3 ++ imm.extractLsb' 0 5 ++ opcode

/-- Bit 31 is imm[12], bits 30:25 imm[10:5], bits 11:8 imm[4:1], bit 7 imm[11]. -/
def encodeB (imm : BitVec 13) (rs2 rs1 : RegIdx) (funct3 : BitVec 3) (opcode : BitVec 7) : Word :=
  imm.extractLsb' 12 1 ++ imm.extractLsb' 5 6 ++ regBits rs2 ++ regBits rs1 ++ funct3 ++
    imm.extractLsb' 1 4 ++ imm.extractLsb' 11 1 ++ opcode

def encodeU (imm : BitVec 20) (rd : RegIdx) (opcode : BitVec 7) : Word :=
  imm ++ regBits rd ++ opcode

/-- Bit 31 is imm[20], bits 30:21 imm[10:1], bit 20 imm[11], bits 19:12 imm[19:12]. -/
def encodeJ (imm : BitVec 21) (rd : RegIdx) (opcode : BitVec 7) : Word :=
  imm.extractLsb' 20 1 ++ imm.extractLsb' 1 10 ++ imm.extractLsb' 11 1 ++ imm.extractLsb' 12 8 ++ regBits rd ++
    opcode

/-- The word of an instruction. -/
def encode : Instr → Word
  | .jal rd imm => encodeJ imm rd 0b1101111
  | .ecall unexamined => unexamined ++ (0b1110011 : BitVec 7)
  | .beq rs1 rs2 imm => encodeB imm rs2 rs1 0b000 0b1100011
  | .bne rs1 rs2 imm => encodeB imm rs2 rs1 0b001 0b1100011
  | .lw rd rs1 imm => encodeI imm rs1 0b010 rd 0b0000011
  | .sw rs1 rs2 imm => encodeS imm rs2 rs1 0b010 0b0100011
  | .addi rd rs1 imm => encodeI imm rs1 0b000 rd 0b0010011
  | .slli rd rs1 imm => encodeI imm rs1 0b001 rd 0b0010011
  | .ori rd rs1 imm => encodeI imm rs1 0b110 rd 0b0010011
  | .lui rd imm => encodeU imm rd 0b0110111
  | .auipc rd imm => encodeU imm rd 0b0010111
  | .xor rd rs1 rs2 => encodeR 0b0000000 rs2 rs1 0b100 rd 0b0110011
  | .srl rd rs1 rs2 => encodeR 0b0000000 rs2 rs1 0b101 rd 0b0110011
  | .rem rd rs1 rs2 => encodeR 0b0000001 rs2 rs1 0b110 rd 0b0110011
  | .gap => 0

end Sys2Proof
end

