-- ==== Sys2Proof/Machine/Ops.lean ====
section
/-! DEFINITION. The named operations over registers, memory, the pc and the status (00_scope.md R11). -/

namespace Sys2Proof.Machine

/-! ## Registers (10_state.md R21, R22) -/

/-- `x[i]`: register 0 always reads as zero (R21). -/
def readReg (s : State) (r : RegIdx) : Word := if r = 0 then 0 else s.regs[r.val]

/-- `x[i] <- v`: a write to register 0 is discarded (R22). -/
def writeReg (s : State) (r : RegIdx) (v : Word) : State :=
  if r = 0 then s else { s with regs := s.regs.set r.val v r.isLt }

/-! ## Bytes of memory -/

/-- The byte at an address (20_memory.md R50, R54). -/
def Memory.read : Memory → Nat → Byte
  | [], _ => unlistedByte
  | (a', b) :: m, a => if a' = a then b else Memory.read m a

/-- Set the byte at an address, keeping the canonical form. -/
def Memory.write : Memory → Nat → Byte → Memory
  | [], a, b => if b = unlistedByte then [] else [(a, b)]
  | (a', b') :: m, a, b =>
    if a < a' then (if b = unlistedByte then (a', b') :: m else (a, b) :: (a', b') :: m)
    else if a = a' then (if b = unlistedByte then m else (a, b) :: m)
    else (a', b') :: Memory.write m a b

/-- Set consecutive bytes from an address up. -/
def Memory.writeBytes : Memory → Nat → List Byte → Memory
  | m, _, [] => m
  | m, a, b :: bs => Memory.writeBytes (Memory.write m a b) (a + 1) bs

/-- Every listed address lies below a limit. -/
def Memory.below (limit : Nat) (m : Memory) : Bool := m.all fun c => decide (c.1 < limit)

/-- The model's read of one byte. -/
def readByte (s : State) (a : Nat) : Byte := Memory.read s.mem a

/-! ## Which bytes exist, and which an access touches (20_memory.md R53, R54) -/

/-- The number of present addresses: they are 0 up to it. -/
def presentLimit (c : Config) : Nat :=
  match c.memoryMode with
  | .strict => c.memSize
  | .sparse => addressSpace

/-- `in_range(addr, 4)`: in strict mode `uint(addr) + 4 <= MEM_SIZE` (R53), always true in sparse mode (R54). -/
def inRange (c : Config) (addr : Word) : Bool :=
  match c.memoryMode with
  | .strict => decide (addr.toNat + 4 ≤ c.memSize)
  | .sparse => true

/-- The address of byte `i` of an access at `addr`: no wrap-around in strict mode (R53), modulo 2^32 in sparse mode (R54). -/
def byteAddress (c : Config) (addr : Word) (i : Nat) : Nat :=
  match c.memoryMode with
  | .strict => addr.toNat + i
  | .sparse => (addr.toNat + i) % addressSpace

/-- Whether the 4-byte access at `addr` touches byte address `a`. -/
def touches (c : Config) (addr : Word) (a : Nat) : Bool :=
  a == byteAddress c addr 0 || a == byteAddress c addr 1 || a == byteAddress c addr 2 || a == byteAddress c addr 3

/-! ## Words of memory (20_memory.md R56 to R58) -/

/-- The word whose four bytes start at `addr`, in a byte order. -/
def wordAt (o : ByteOrder) (s : State) (addr : Word) : Word :=
  wordOfBytes o (readByte s (byteAddress s.config addr 0)) (readByte s (byteAddress s.config addr 1))
    (readByte s (byteAddress s.config addr 2)) (readByte s (byteAddress s.config addr 3))

/-- `s` with a word's four bytes put at `addr` in a byte order. -/
def putWord (o : ByteOrder) (s : State) (addr v : Word) : State :=
  { s with mem :=
      Memory.write (Memory.write (Memory.write (Memory.write s.mem
        (byteAddress s.config addr 0) (byteOfWord o v 0)) (byteAddress s.config addr 1) (byteOfWord o v 1))
        (byteAddress s.config addr 2) (byteOfWord o v 2)) (byteAddress s.config addr 3) (byteOfWord o v 3) }

/-- `MemRead(addr, 4)` of R56: big-endian. -/
def memRead (s : State) (addr : Word) : Except ErrorRecord Word :=
  if inRange s.config addr then .ok (wordAt .big s addr) else .error (.memoryOutOfRange s.pc .load addr)

/-- `MemWrite(addr, 4, v)` of R57: big-endian, all four bytes or none (R71). -/
def memWrite (s : State) (addr v : Word) : Except ErrorRecord State :=
  if inRange s.config addr then .ok (putWord .big s addr v) else .error (.memoryOutOfRange s.pc .store addr)

/-- `Fetch(addr)` of R58: in FETCH_BYTE_ORDER. -/
def fetch (s : State) (addr : Word) : Except ErrorRecord Word :=
  if inRange s.config addr then .ok (wordAt s.config.fetchOrder s addr) else .error (.memoryOutOfRange s.pc .fetch addr)

/-! ## Taking an error, halting, and the end of a cycle -/

/-- `raise E(info)` (60_exceptions.md R203): nothing of the cycle commits, the pc stays, the status becomes the error
with its record. `s` is the state before the cycle. There is no return from it (R208). -/
def raise (e : ErrorRecord) (s : State) : Outcome := .next { s with status := .error e }

/-- The spec's numbers for the error kinds (R201, decision D17). -/
def ErrorRecord.code : ErrorRecord → Nat
  | .unimplementedInstruction _ _ _ _ => 1
  | .memoryOutOfRange _ _ _ => 2

/-- The pc an error record reports: the failing instruction's address (R202, R204). -/
def ErrorRecord.pc : ErrorRecord → Word
  | .unimplementedInstruction pc _ _ _ => pc
  | .memoryOutOfRange pc _ _ => pc

/-- `halt` (42_environment.md R160). -/
def halt (s : State) : State := { s with status := .halted }

/-- The pc advance (40_cycle_and_datapath.md R125, R127): the explicit target if one is set, else `pc + 4`. -/
def advance (override : Option Word) (s : State) : State := { s with pc := override.getD (s.pc + 4) }

/-- The end of a cycle that raised no error: commit and advance (R125, R129). -/
def finish (override : Option Word) (s : State) : Outcome := .next (advance override s)

end Sys2Proof.Machine
end

