-- ==== Sys2Proof/Machine/Operands.lean ====
section
/-! DEFINITION. Operand forms: the immediates of an instruction as `Bits32`, the shift amount and the effective address. -/

namespace Sys2Proof.Machine

/-- `imm_U << 12` = `{w[31:12], 0x000}` (30_encoding.md R87, 44_integer_immediate.md R178). -/
def upper (imm : BitVec 20) : Word := zext imm <<< 12

/-- The low five bits of a shift operand, 0 to 31 (R176, 45_integer_register.md R191). -/
def shiftAmount (v : Word) : Nat := (v.extractLsb' 0 5).toNat

/-- `ea <- x[rs1] + imm` modulo 2^32 (43_load_store.md R165, R166). -/
def effectiveAddress (s : State) (rs1 : RegIdx) (imm : BitVec 12) : Word := readReg s rs1 + sext imm

/-- `pcc_target` (40_cycle_and_datapath.md R136): `pc + imm`. -/
def pcTarget {n : Nat} (s : State) (imm : BitVec n) : Word := s.pc + sext imm

/-- `pcc_link` (10_state.md R45): `pc + 4`. -/
def link (s : State) : Word := s.pc + 4

end Sys2Proof.Machine
end

