-- ==== Sys2Proof/Machine/ControlTransfer.lean ====
section
/-! DEFINITION. JAL, BEQ, BNE (41_control_transfer.md R150 to R153). -/

namespace Sys2Proof.Machine

/-- R150. The link value and the target both use the JAL's own pc. -/
def execJal (rd : RegIdx) (imm : BitVec 21) (s : State) : Outcome :=
  finish (some (pcTarget s imm)) (writeReg s rd (link s))

/-- The explicit target of a branch: set when the branch is taken, else none (40_cycle_and_datapath.md R127, R128). -/
def branchTarget (taken : Bool) (imm : BitVec 13) (s : State) : Option Word :=
  if taken then some (pcTarget s imm) else none

/-- R151. -/
def execBeq (rs1 rs2 : RegIdx) (imm : BitVec 13) (s : State) : Outcome :=
  finish (branchTarget (cmpEq (readReg s rs1) (readReg s rs2)) imm s) s

/-- R152. -/
def execBne (rs1 rs2 : RegIdx) (imm : BitVec 13) (s : State) : Outcome :=
  finish (branchTarget (!cmpEq (readReg s rs1) (readReg s rs2)) imm s) s

end Sys2Proof.Machine
end

