-- ==== Sys2Proof/Machine/Environment.lean ====
section
/-! DEFINITION. ECALL, which is every SYSTEM-opcode word (42_environment.md R160, R161), and the gap word
(40_cycle_and_datapath.md R122). -/

namespace Sys2Proof.Machine

/-- R160: halt; the pc advances as in every cycle with no target. No bit of the word is examined (R161). -/
def execEcall (_unexamined : BitVec 25) (s : State) : Outcome := finish none (halt s)

/-- R122: no change but `pc <- pc + 4`. -/
def execGap (s : State) : Outcome := finish none s

end Sys2Proof.Machine
end

