-- ==== Sys2Proof/Machine/Alu.lean ====
section
/-! DEFINITION. The ALU of 40_cycle_and_datapath.md R131. -/

namespace Sys2Proof.Machine

/-- `alu_op` of 10_state.md R43. -/
inductive AluOp where
  | add
  | sll
  | srl
  | or
  | xor
  | rem
  | passb
deriving DecidableEq, Repr

/-- Shift left by the low five bits of `b` (R131). -/
def sll (a b : Word) : Word := a <<< shiftAmount b

/-- Zero-filling shift right by the low five bits of `b` (R131, 45_integer_register.md R191). -/
def srl (a b : Word) : Word := a >>> shiftAmount b

/-- `rem32` of 45_integer_register.md R192. `Int.tmod` is `trunc_rem` and `BitVec.ofInt 32` is `to_bits32` of 00_scope.md R9. -/
def rem32 (a b : Word) : Word :=
  if b = 0x00000000 then a
  else if a = 0x80000000 ∧ b = 0xFFFFFFFF then 0x00000000
  else BitVec.ofInt 32 (Int.tmod a.toInt b.toInt)

/-- `alu_y` (R131). -/
def alu (op : AluOp) (a b : Word) : Word :=
  match op with
  | .add => a + b
  | .sll => sll a b
  | .srl => srl a b
  | .or => a ||| b
  | .xor => a ^^^ b
  | .rem => rem32 a b
  | .passb => b

end Sys2Proof.Machine
end

