-- ==== Sys2Proof/Machine/IntegerImmediate.lean ====
section
/-! DEFINITION. ADDI, SLLI, ORI, LUI, AUIPC (44_integer_immediate.md R175 to R179). -/

namespace Sys2Proof.Machine

/-- R175. -/
def execAddi (rd rs1 : RegIdx) (imm : BitVec 12) (s : State) : Outcome :=
  finish none (writeReg s rd (readReg s rs1 + sext imm))

/-- R176: the shift amount is `imm_I[4:0]`. -/
def execSlli (rd rs1 : RegIdx) (imm : BitVec 12) (s : State) : Outcome :=
  finish none (writeReg s rd (sll (readReg s rs1) (sext imm)))

/-- R177. -/
def execOri (rd rs1 : RegIdx) (imm : BitVec 12) (s : State) : Outcome :=
  finish none (writeReg s rd (readReg s rs1 ||| sext imm))

/-- R178. -/
def execLui (rd : RegIdx) (imm : BitVec 20) (s : State) : Outcome :=
  finish none (writeReg s rd (upper imm))

/-- R179: `pc` is the instruction's own address. -/
def execAuipc (rd : RegIdx) (imm : BitVec 20) (s : State) : Outcome :=
  finish none (writeReg s rd (s.pc + upper imm))

end Sys2Proof.Machine
end

