-- ==== Sys2Proof/Machine/IntegerRegister.lean ====
section
/-! DEFINITION. XOR, SRL, REM (45_integer_register.md R190 to R192). -/

namespace Sys2Proof.Machine

/-- R190. -/
def execXor (rd rs1 rs2 : RegIdx) (s : State) : Outcome :=
  finish none (writeReg s rd (readReg s rs1 ^^^ readReg s rs2))

/-- R191. -/
def execSrl (rd rs1 rs2 : RegIdx) (s : State) : Outcome :=
  finish none (writeReg s rd (srl (readReg s rs1) (readReg s rs2)))

/-- R192. -/
def execRem (rd rs1 rs2 : RegIdx) (s : State) : Outcome :=
  finish none (writeReg s rd (rem32 (readReg s rs1) (readReg s rs2)))

end Sys2Proof.Machine
end

