-- ==== Sys2Proof/Machine/LoadStore.lean ====
section
/-! DEFINITION. LW and SW (43_load_store.md R165 to R167). -/

namespace Sys2Proof.Machine

/-- R165. The read happens, and can raise, whatever `rd` is. -/
def execLw (rd rs1 : RegIdx) (imm : BitVec 12) (s : State) : Outcome :=
  match memRead s (effectiveAddress s rs1 imm) with
  | .error e => raise e s
  | .ok v => finish none (writeReg s rd v)

/-- R166. -/
def execSw (rs1 rs2 : RegIdx) (imm : BitVec 12) (s : State) : Outcome :=
  match memWrite s (effectiveAddress s rs1 imm) (readReg s rs2) with
  | .error e => raise e s
  | .ok s' => finish none s'

end Sys2Proof.Machine
end

