-- ==== Sys2Proof/Machine/Cycle.lean ====
section
/-! DEFINITION. One cycle (40_cycle_and_datapath.md R120 to R126), and how an instruction is placed where it is fetched. -/

namespace Sys2Proof.Machine

/-- The cycle of a Running state (R126), its checks in the order of 60_exceptions.md R206. The gap word is the
instruction `gap` of the decoder. -/
def runningCycle (s : State) : Outcome :=
  match fetch s s.pc with
  | .error e => raise e s
  | .ok w =>
    match decode w with
    | .unimplemented opcode funct3 funct7 => raise (.unimplementedInstruction s.pc opcode funct3 funct7) s
    | .instr i => exec i s

/-- A cycle happens only while the status is Running (R120, 10_state.md R29); otherwise the machine has stopped (log entry 3). -/
def cycle (s : State) : Outcome :=
  match s.status with
  | .running => runningCycle s
  | .halted => .fault .notRunning
  | .error _ => .fault .notRunning

/-- `s` with the word of `nbits` bits stored at the pc, in FETCH_BYTE_ORDER. -/
def placeFetchWord (s : State) (nbits w : Nat) : State :=
  putWord s.config.fetchOrder s s.pc (BitVec.ofNat 32 (w % 2 ^ nbits))

end Sys2Proof.Machine
end

