-- ==== Sys2Proof/Machine/Step.lean ====
section
/-! DEFINITION. The step: one cycle (00_scope.md R13, decision D1). -/

namespace Sys2Proof.Machine

/-- One step is one cycle (40_cycle_and_datapath.md R120). -/
def step (s : State) : Host.Outcome State Fault Refusal := cycle s

/-- `s` with an instruction's word stored where `step` fetches its next instruction, the pc. -/
def State.withFetchWord (s : State) (nbits w : Nat) : State := placeFetchWord s nbits w

end Sys2Proof.Machine
end

