-- ==== Sys2Proof/Assembly.lean ====
section
/-! DEFINITION. Spelling only: mnemonics and operand syntax (30_encoding.md R104), ABI register names (10_state.md R23) and
pseudo-instructions (R105). The spec gives all three from general knowledge; the machine uses none of them (decision D27). -/

namespace Sys2Proof

/-- The standard ABI names of R23, `x0` first. -/
def abiNames : List String :=
  ["zero", "ra", "sp", "gp", "tp", "t0", "t1", "t2", "s0", "s1", "a0", "a1", "a2", "a3", "a4", "a5"] ++
  ["a6", "a7", "s2", "s3", "s4", "s5", "s6", "s7", "s8", "s9", "s10", "s11", "t3", "t4", "t5", "t6"]

/-- The ABI name of a register. -/
def abiName (r : RegIdx) : String := abiNames.getD r.val ""

/-- The plain name `x0` to `x31`. -/
def regName (r : RegIdx) : String := "x" ++ toString r.val

/-- The mnemonic of R104. -/
def Op.mnemonic : Op → String
  | .jal => "jal"
  | .ecall => "ecall"
  | .beq => "beq"
  | .bne => "bne"
  | .lw => "lw"
  | .sw => "sw"
  | .addi => "addi"
  | .slli => "slli"
  | .ori => "ori"
  | .lui => "lui"
  | .auipc => "auipc"
  | .xor => "xor"
  | .srl => "srl"
  | .rem => "rem"
  | .gap => "gap"
  | .unimpl => "unimpl"

/-- The operand list of R104. -/
def Instr.operands : Instr → List String
  | .jal rd imm => [regName rd, toString imm.toInt]
  | .ecall _ => []
  | .beq rs1 rs2 imm => [regName rs1, regName rs2, toString imm.toInt]
  | .bne rs1 rs2 imm => [regName rs1, regName rs2, toString imm.toInt]
  | .lw rd rs1 imm => [regName rd, toString imm.toInt ++ "(" ++ regName rs1 ++ ")"]
  | .sw rs1 rs2 imm => [regName rs2, toString imm.toInt ++ "(" ++ regName rs1 ++ ")"]
  | .addi rd rs1 imm => [regName rd, regName rs1, toString imm.toInt]
  | .slli rd rs1 imm => [regName rd, regName rs1, toString (imm.toNat % 32)]
  | .ori rd rs1 imm => [regName rd, regName rs1, toString imm.toInt]
  | .lui rd imm => [regName rd, toString imm.toNat]
  | .auipc rd imm => [regName rd, toString imm.toNat]
  | .xor rd rs1 rs2 => [regName rd, regName rs1, regName rs2]
  | .srl rd rs1 rs2 => [regName rd, regName rs1, regName rs2]
  | .rem rd rs1 rs2 => [regName rd, regName rs1, regName rs2]
  | .gap => []

/-- The assembler text of R104. -/
def Instr.asm (i : Instr) : String :=
  match i.operands with
  | [] => i.op.mnemonic
  | os => i.op.mnemonic ++ " " ++ String.intercalate ", " os

/-- `hi20` of R105: `((imm + 0x800) >> 12) & 0xFFFFF`. -/
def hi20 (imm : Word) : BitVec 20 := (imm + 0x800).extractLsb' 12 20

/-- `lo12` of R105, as the 12-bit field: `imm - (hi20 << 12)` lies in -2048 to 2047. -/
def lo12 (imm : Word) : BitVec 12 := imm.extractLsb' 0 12

/-- The pseudo-instructions of R105 that run here. `la` takes the pc-relative distance of its symbol. -/
inductive Pseudo where
  | nop
  | mv (rd rs : RegIdx)
  | liSmall (rd : RegIdx) (imm : BitVec 12)
  | li (rd : RegIdx) (imm : Word)
  | la (rd : RegIdx) (distance : Word)
  | j (offset : BitVec 21)
  | jal (offset : BitVec 21)
  | beqz (rs : RegIdx) (offset : BitVec 13)
  | bnez (rs : RegIdx) (offset : BitVec 13)
deriving DecidableEq, Repr

/-- The expansions of R105. -/
def Pseudo.expand : Pseudo → List Instr
  | .nop => [.addi 0 0 0]
  | .mv rd rs => [.addi rd rs 0]
  | .liSmall rd imm => [.addi rd 0 imm]
  | .li rd imm => [.lui rd (hi20 imm), .addi rd rd (lo12 imm)]
  | .la rd distance => [.auipc rd (hi20 distance), .addi rd rd (lo12 distance)]
  | .j offset => [.jal 0 offset]
  | .jal offset => [.jal 1 offset]
  | .beqz rs offset => [.beq rs 0 offset]
  | .bnez rs offset => [.bne rs 0 offset]

end Sys2Proof
end

