-- ==== Sys2Proof/Machine/Datapath.lean ====
section
/-! DEFINITION. The datapath of 40_cycle_and_datapath.md R130 to R136 with the ports of 10_state.md R41 to R45. `exec`
does not use it: "where they differ, the instruction rule governs". -/

namespace Sys2Proof.Machine

/-- `wb_sel` (R134). -/
inductive WbSel where
  | alu
  | mem
  | link
deriving DecidableEq, Repr

/-- `a_sel` (R132). -/
inductive ASel where
  | rs1
  | pc
deriving DecidableEq, Repr

/-- `b_sel` (R132). -/
inductive BSel where
  | rs2
  | imm
  | uimm
deriving DecidableEq, Repr

/-- The column `pcc_take` of R130. -/
inductive TakeSel where
  | never
  | always
  | ifEqual
  | ifNotEqual
deriving DecidableEq, Repr

/-- One row of the control table R130. `none` in a select is the table's "don't care"; `memKind` is `none`, LOAD or STORE. -/
structure Control where
  rfWe : Bool
  wbSel : Option WbSel
  aluOp : Option AluOp
  aSel : Option ASel
  bSel : Option BSel
  memKind : Option AccessKind
  pccTake : TakeSel
  halt : Bool
deriving DecidableEq, Repr

/-- The control table R130. UNIMPL's row is the last: its cycle raises instead. -/
def controlRow : Op → Control
  | .jal => ⟨true, some .link, none, none, none, none, .always, false⟩
  | .ecall => ⟨false, none, none, none, none, none, .never, true⟩
  | .beq => ⟨false, none, none, some .rs1, some .rs2, none, .ifEqual, false⟩
  | .bne => ⟨false, none, none, some .rs1, some .rs2, none, .ifNotEqual, false⟩
  | .lw => ⟨true, some .mem, some .add, some .rs1, some .imm, some .load, .never, false⟩
  | .sw => ⟨false, none, some .add, some .rs1, some .imm, some .store, .never, false⟩
  | .addi => ⟨true, some .alu, some .add, some .rs1, some .imm, none, .never, false⟩
  | .slli => ⟨true, some .alu, some .sll, some .rs1, some .imm, none, .never, false⟩
  | .ori => ⟨true, some .alu, some .or, some .rs1, some .imm, none, .never, false⟩
  | .lui => ⟨true, some .alu, some .passb, none, some .uimm, none, .never, false⟩
  | .auipc => ⟨true, some .alu, some .add, some .pc, some .uimm, none, .never, false⟩
  | .xor => ⟨true, some .alu, some .xor, some .rs1, some .rs2, none, .never, false⟩
  | .srl => ⟨true, some .alu, some .srl, some .rs1, some .rs2, none, .never, false⟩
  | .rem => ⟨true, some .alu, some .rem, some .rs1, some .rs2, none, .never, false⟩
  | .gap => ⟨false, none, none, none, none, none, .never, false⟩
  | .unimpl => ⟨false, none, none, none, none, none, .never, false⟩

/-- `alu_a` (R132). A "don't care" select takes the first input: the value is not used (DESIGN CHOICE, log entry 9). -/
def aluA (c : Control) (r : InstrRecord) (s : State) : Word :=
  match c.aSel with
  | some .pc => s.pc
  | some .rs1 => readReg s r.rs1
  | none => readReg s r.rs1

/-- `alu_b` (R132). A "don't care" select takes the first input (DESIGN CHOICE, log entry 9). -/
def aluB (c : Control) (r : InstrRecord) (s : State) : Word :=
  match c.bSel with
  | some .rs2 => readReg s r.rs2
  | some .imm => r.imm
  | some .uimm => r.imm <<< 12
  | none => readReg s r.rs2

/-- `alu_y` (R131). A "don't care" operation gives `alu_a` (DESIGN CHOICE, log entry 9). -/
def aluY (c : Control) (r : InstrRecord) (s : State) : Word :=
  match c.aluOp with
  | some op => alu op (aluA c r s) (aluB c r s)
  | none => aluA c r s

/-- `pcc_take` (10_state.md R45). -/
def pccTake (c : Control) (r : InstrRecord) (s : State) : Bool :=
  match c.pccTake with
  | .never => false
  | .always => true
  | .ifEqual => cmpEq (readReg s r.rs1) (readReg s r.rs2)
  | .ifNotEqual => !cmpEq (readReg s r.rs1) (readReg s r.rs2)

/-- `pcc_next` (R136). -/
def pccNext (c : Control) (r : InstrRecord) (s : State) : Word :=
  if pccTake c r s then s.pc + r.imm else s.pc + 4

/-- `rf_wdata` (R134), given `mem_rdata`. A "don't care" select takes the first input (DESIGN CHOICE, log entry 9). -/
def rfWdata (c : Control) (r : InstrRecord) (rdata : Word) (s : State) : Word :=
  match c.wbSel with
  | some .alu => aluY c r s
  | some .mem => rdata
  | some .link => s.pc + 4
  | none => aluY c r s

/-- The end of a cycle with no error: `committed` is `s` with the store of the cycle, and the register write, the halt
and the pc are added. -/
def commit (c : Control) (r : InstrRecord) (rdata : Word) (s committed : State) : Outcome :=
  let written := if c.rfWe then writeReg committed r.rd (rfWdata c r rdata s) else committed
  let stopped := if c.halt then { written with status := .halted } else written
  .next { stopped with pc := pccNext c r s }

/-- The cycle's execution by the datapath: the data phase (R135), then the commit. Where there is no load, 0 stands for
`mem_rdata`, which no row then selects (DESIGN CHOICE, log entry 9). -/
def datapath (c : Control) (r : InstrRecord) (s : State) : Outcome :=
  match c.memKind with
  | some .load =>
    match memRead s (aluY c r s) with
    | .error e => raise e s
    | .ok v => commit c r v s s
  | some .store =>
    match memWrite s (aluY c r s) (readReg s r.rs2) with
    | .error e => raise e s
    | .ok s' => commit c r 0 s s'
  | some .fetch => commit c r 0 s s
  | none => commit c r 0 s s

/-- The datapath on a fetched word: the control row and the record of the dispatched operation and format (R123). DESIGN
CHOICE: for GAP and UNIMPL, where 10_state.md R41 leaves `dec_fmt` as don't care, the record is decoded as format R, with
immediate 0; their control row uses no field of it (log entry 9). -/
def datapathWord (w : Word) (s : State) : Outcome :=
  datapath (controlRow (dispatch w).1) (record ((dispatch w).2.getD .R) w) s

end Sys2Proof.Machine
end

