-- ==== Sys2Proof/Machine/Reset.lean ====
section
/-! DEFINITION. Reset with an image, for every value of the parameters (70_reset_and_hazards.md R230 to R233). -/

namespace Sys2Proof.Machine

/-- R231: memory holds the image from address 0 and zero elsewhere, the registers and the pc are 0, the status Running. -/
def State.resetWith (c : Config) (image : List Byte) : State where
  regs := Vector.replicate 32 0
  pc := entry
  mem := Memory.writeBytes [] 0 image
  status := .running
  config := c

/-- The loader's offset (20_memory.md R51, R233): the engine address of an architectural address. -/
def engineAddress (architectural : Word) : Word := architectural - base

/-- Form (b) of the image (R233, decision D24): each word, at an engine address, is written to its 4 bytes in
FETCH_BYTE_ORDER, the first pair first. -/
def loadWords (s : State) : List (Word × Word) → State
  | [] => s
  | (addr, w) :: rest => loadWords (putWord s.config.fetchOrder s addr w) rest

/-- Reset from a form (b) image. -/
def State.resetFromWords (c : Config) (image : List (Word × Word)) : State := loadWords (State.resetWith c []) image

/-- The loader's duty on size (20_memory.md R55, R64; R233): every image byte is at a present address. -/
def imageFits (c : Config) (image : List Byte) : Bool := decide (image.length ≤ presentLimit c)

end Sys2Proof.Machine
end

