-- ==== Sys2Proof/Safety.lean ====
section
/-! DEFINITION. What a run's end means, in the terms claims use: outputs, the driver's test, and the invariant. -/

namespace Sys2Proof.Machine

/-- The status is an error (60_exceptions.md R203). -/
def State.errored (s : State) : Bool :=
  match s.status with
  | .error _ => true
  | .halted => false
  | .running => false

/-- A safe state: no error has been raised. -/
def State.safe (s : State) : Bool := !s.errored

/-- The block's outputs (10_state.md R46, 70_reset_and_hazards.md R235): the 32 register values and the status. -/
def State.outputs (s : State) : List Word × Status := ((List.finRange 32).map (readReg s), s.status)

/-- The driver's pass test (R236): Halted, and register 10 equal to 1. -/
def State.driverPass (s : State) : Bool := decide (s.status = .halted) && (readReg s successReg == successValue)

/-- The invariant every step keeps: legal parameters (00_scope.md R6), memory in canonical form and listing present
addresses only (20_memory.md R53, R54), register 0's slot never stored to (10_state.md R22), and an even pc (R27). -/
def State.inv (s : State) : Bool :=
  s.config.wf && Memory.wf s.mem && Memory.below (presentLimit s.config) s.mem && (s.regs[0] == 0) &&
    (s.pc.toNat % 2 == 0)

end Sys2Proof.Machine
end

