-- ==== Sys2Proof/Certificates/Slice0/Obligations.lean ====
section
/-! DEFINITION. The statements for the provers. In a statement about one instruction's result, a first clause that starts
`∀ w : Word, opcodeOf w = …` is the rule's encoding line, and the rest is its effect, its frame and its completion. -/

namespace Sys2Proof.Machine

/-- The register file of `t` is that of `s` with `v` written to `rd`; a write to register 0 is discarded. -/
def RegsAfter (s t : State) (rd : RegIdx) (v : Word) : Prop :=
  ∀ r, readReg t r = if r = rd ∧ rd ≠ 0 then v else readReg s r

/-- Every register reads as before. -/
def RegsSame (s t : State) : Prop := ∀ r, readReg t r = readReg s r

/-- Every byte of memory reads as before. -/
def BytesSame (s t : State) : Prop := ∀ a, readByte t a = readByte s a

/-- The run status and the parameters are unchanged. -/
def StatusSame (s t : State) : Prop := t.status = s.status ∧ t.config = s.config

/-- The word a cycle of `s` fetches. -/
def fetchedWord (s : State) : Word := wordAt s.config.fetchOrder s s.pc

/-- The status of the state after a cycle of `s`, by the order of checks of 60_exceptions.md R206. -/
def statusAfter (s : State) : Status :=
  if inRange s.config s.pc = false then .error (.memoryOutOfRange s.pc .fetch s.pc)
  else match decode (fetchedWord s) with
    | .unimplemented opcode funct3 funct7 => .error (.unimplementedInstruction s.pc opcode funct3 funct7)
    | .instr (.ecall _) => .halted
    | .instr (.lw _ rs1 imm) =>
      if inRange s.config (effectiveAddress s rs1 imm) then .running
      else .error (.memoryOutOfRange s.pc .load (effectiveAddress s rs1 imm))
    | .instr (.sw rs1 _ imm) =>
      if inRange s.config (effectiveAddress s rs1 imm) then .running
      else .error (.memoryOutOfRange s.pc .store (effectiveAddress s rs1 imm))
    | .instr _ => .running

/-- The pc after a cycle of `s` that raises no error, by the table of 10_state.md R26. -/
def pcAfter (s : State) : Word :=
  match decode (fetchedWord s) with
  | .instr (.jal _ imm) => s.pc + sext imm
  | .instr (.beq rs1 rs2 imm) => if readReg s rs1 = readReg s rs2 then s.pc + sext imm else s.pc + 4
  | .instr (.bne rs1 rs2 imm) => if readReg s rs1 ≠ readReg s rs2 then s.pc + sext imm else s.pc + 4
  | _ => s.pc + 4

end Sys2Proof.Machine

open Sys2Proof Sys2Proof.Machine

/-! ## Reset and the invariant -/

/-- 10_state.md section 5 (R37) and 70_reset_and_hazards.md section 1 (R231): after reset every register reads 0, the pc is
0, the status Running, and memory holds the image with every other byte 0. The zero past the image's end is decision D25.
The model's choices: the parameters are a field of State (the clause `config = c`, log entry 1), and `State.reset` takes
MEM_SIZE 2^32 (log entry 2) and the empty image (log entry 5). -/
def Obligations.ResetGivesSpecifiedState : Prop :=
  ∀ (c : Config) (image : List Byte),
    (∀ r, readReg (State.resetWith c image) r = 0) ∧ (State.resetWith c image).pc = 0 ∧
    (State.resetWith c image).status = .running ∧ (State.resetWith c image).config = c ∧
    (∀ a, readByte (State.resetWith c image) a = (image[a]?).getD 0) ∧
    State.reset = State.resetWith Config.default []

/-- The invariant holds at reset. Its parameters are the model's default (log entry 2). -/
def Obligations.ResetSatisfiesInvariant : Prop := State.reset.inv = true

/-- The invariant holds after reset with any legal parameters and any image that fits. -/
def Obligations.ResetWithImageSatisfiesInvariant : Prop :=
  ∀ (c : Config) (image : List Byte), c.wf = true → imageFits c image = true → (State.resetWith c image).inv = true

/-- Every step keeps the invariant: legal parameters, canonical memory that lists present addresses only, register 0's
slot never stored to (log entry 7), an even pc (decision D11). -/
def Obligations.StepKeepsInvariant : Prop :=
  ∀ s t : State, s.inv = true → step s = .next t → t.inv = true

/-- 10_state.md section 2 (R27, decision D11): the pc stays even, whatever else the state holds. -/
def Obligations.PcStaysEven : Prop :=
  ∀ s t : State, s.pc.toNat % 2 = 0 → step s = .next t → t.pc.toNat % 2 = 0

/-- No step changes the parameters (the model's own field, log entry 1). -/
def Obligations.StepKeepsParameters : Prop := ∀ s t : State, step s = .next t → t.config = s.config

/-! ## Registers -/

/-- 10_state.md section 1 (R22): a write to register 0 changes no state, any other write sets that register alone, and, with
`rd = 0`, JAL still jumps and LW can still raise MemoryOutOfRange. That the state after LW's error keeps the pc and commits
nothing is decision D12, and its address and range check are decisions D8 and D9 (log entries 4 and 6). The completion
clauses are for JAL and LW with `rd = 0` alone. -/
def Obligations.RegisterWriteThenRead : Prop :=
  (∀ (s : State) (v : Word), writeReg s 0 v = s) ∧
  (∀ (s : State) (i r : RegIdx) (v : Word),
    readReg (writeReg s i v) r = (if r = 0 then 0 else if r = i then v else readReg s r) ∧
    (writeReg s i v).pc = s.pc ∧ (writeReg s i v).mem = s.mem ∧ (writeReg s i v).status = s.status) ∧
  (∀ (s : State) (imm : BitVec 21), exec (.jal 0 imm) s = .next { s with pc := s.pc + sext imm }) ∧
  (∀ (s : State) (rs1 : RegIdx) (imm : BitVec 12),
    exec (.lw 0 rs1 imm) s =
      if inRange s.config (effectiveAddress s rs1 imm) then .next { s with pc := s.pc + 4 }
      else .next { s with status := .error (.memoryOutOfRange s.pc .load (effectiveAddress s rs1 imm)) })

/-! ## Encoding -/

/-- Decoding the word of a well-formed instruction gives it back, every operand at every value. -/
def Obligations.DecodeEncodeRoundTrip : Prop := ∀ i : Instr, i.wellFormed = true → decode (encode i) = .instr i

/-- A word has one meaning: what it decodes to is well formed and encodes to that word. The unexamined bits of ECALL and
SLLI are kept in the instruction (log entry 8). -/
def Obligations.EncodeDecodeRoundTrip : Prop :=
  ∀ (w : Word) (i : Instr), decode w = .instr i → i.wellFormed = true ∧ encode i = w

/-- Words of 95_test_vectors.md section 2.1, one or more of each family, decode as listed there. -/
def Obligations.SpecWordsDecode : Prop :=
  decode 0x00000000 = .instr .gap ∧ decode 0xFFF08093 = .instr (.addi 1 1 0xFFF) ∧
  decode 0x80000063 = .instr (.beq 0 0 0x1000) ∧ decode 0x7E000FE3 = .instr (.beq 0 0 0x0FFE) ∧
  decode 0xFE009CE3 = .instr (.bne 1 0 0x1FF8) ∧ decode 0xFFDFF06F = .instr (.jal 0 0x1FFFFC) ∧
  decode 0x7FFFF0EF = .instr (.jal 1 0x0FFFFE) ∧ decode 0xFE21AA23 = .instr (.sw 3 2 0xFF4) ∧
  decode 0x0002A303 = .instr (.lw 6 5 0) ∧ decode 0x123450B7 = .instr (.lui 1 0x12345) ∧
  decode 0x00001297 = .instr (.auipc 5 1) ∧ decode 0x40109193 = .instr (.slli 3 1 0x401) ∧
  decode 0x1002E293 = .instr (.ori 5 5 0x100) ∧ decode 0x0020C1B3 = .instr (.xor 3 1 2) ∧
  decode 0x0020D1B3 = .instr (.srl 3 1 2) ∧ decode 0x0220E1B3 = .instr (.rem 3 1 2) ∧
  decode 0x30200073 = .instr (.ecall 0x0604000) ∧ decode 0x4020D1B3 = .unimplemented 0b0110011 0b101 0b0100000 ∧
  decode 0x00008067 = .unimplemented 0b1100111 0b000 0b0000000

/-- 30_encoding.md section 5 (R96, R97, R99, R100): the dispatch tree picks exactly the row whose match and mask test holds,
with its format; no word matches two rows; UNIMPL is every word that matches none. The masks are derived by the spec;
GAP as a row of the decoder is log entry 15. -/
def Obligations.DispatchMatchesOpcodeTable : Prop :=
  (∀ (w : Word) (r : Row), r ∈ opcodeTable → (r.matches w = true ↔ dispatch w = (r.op, r.format))) ∧
  (∀ (w : Word) (r r' : Row), r ∈ opcodeTable → r' ∈ opcodeTable → r.matches w = true → r'.matches w = true → r = r') ∧
  (∀ w : Word, dispatch w = (.unimpl, none) ↔ ∀ r ∈ opcodeTable, r.matches w = false)

/-- R10: `sext_N` gives the field's value less 2^N when its top bit is set, else its value; `zext_N` its value. -/
def Obligations.SignExtensionSubtractsPower : Prop :=
  ∀ (n : Nat) (f : BitVec n), 0 < n → n ≤ 32 →
    sext f = BitVec.ofInt 32 (if f.getLsbD (n - 1) then (f.toNat : Int) - 2 ^ n else f.toNat) ∧
    zext f = BitVec.ofNat 32 f.toNat

/-- R84 to R89: the source of every bit of every immediate, its extension and its range; J and B are even; U is
unsigned and unshifted; R has none. -/
def Obligations.ImmediateBitSources : Prop :=
  ∀ w : Word,
    (∀ k, k < 12 → (fieldI w).getLsbD k = w.getLsbD (20 + k)) ∧
    (∀ k, k < 12 → (fieldS w).getLsbD k = if k < 5 then w.getLsbD (7 + k) else w.getLsbD (20 + k)) ∧
    (∀ k, k < 13 → (fieldB w).getLsbD k =
      if k = 0 then false else if k < 5 then w.getLsbD (7 + k) else if k < 11 then w.getLsbD (20 + k)
      else if k = 11 then w.getLsbD 7 else w.getLsbD 31) ∧
    (∀ k, k < 20 → (fieldU w).getLsbD k = w.getLsbD (12 + k)) ∧
    (∀ k, k < 21 → (fieldJ w).getLsbD k =
      if k = 0 then false else if k < 11 then w.getLsbD (20 + k) else if k = 11 then w.getLsbD 20
      else if k < 20 then w.getLsbD k else w.getLsbD 31) ∧
    (immOf .I w = sext (fieldI w) ∧ -2048 ≤ (immOf .I w).toInt ∧ (immOf .I w).toInt ≤ 2047) ∧
    (immOf .S w = sext (fieldS w) ∧ -2048 ≤ (immOf .S w).toInt ∧ (immOf .S w).toInt ≤ 2047) ∧
    (immOf .B w = sext (fieldB w) ∧ -4096 ≤ (immOf .B w).toInt ∧ (immOf .B w).toInt ≤ 4094 ∧
      (immOf .B w).toInt % 2 = 0) ∧
    ((immOf .U w).toNat = (fieldU w).toNat ∧ (immOf .U w).toNat ≤ 0xFFFFF) ∧
    (immOf .J w = sext (fieldJ w) ∧ -1048576 ≤ (immOf .J w).toInt ∧ (immOf .J w).toInt ≤ 1048574 ∧
      (immOf .J w).toInt % 2 = 0) ∧
    immOf .R w = 0

/-- 20_memory.md section 3 (R56 to R58): assembling a word from its bytes gives it back, in either order, and taking a
word apart gives the bytes it was assembled from. -/
def Obligations.WordBytesRoundTrip : Prop :=
  (∀ (o : ByteOrder) (w : Word),
    wordOfBytes o (byteOfWord o w 0) (byteOfWord o w 1) (byteOfWord o w 2) (byteOfWord o w 3) = w) ∧
  (∀ (o : ByteOrder) (b0 b1 b2 b3 : Byte), bytesOfWord o (wordOfBytes o b0 b1 b2 b3) = [b0, b1, b2, b3])

/-! ## Control transfer -/

/-- R150: JAL writes `pc + 4` to `rd` (discarded when `rd = 0`) and jumps to `pc + imm_J`; it completes in every state. The
wrap modulo 2^32 is decision D10. -/
def Obligations.JalLinksAndJumps : Prop :=
  (∀ w : Word, opcodeOf w = 0b1101111 →
    decode w = .instr (.jal (rdOf w) (fieldJ w))) ∧
  ∀ (rd : RegIdx) (imm : BitVec 21) (s : State), ∃ t, exec (.jal rd imm) s = .next t ∧
    RegsAfter s t rd (s.pc + 4) ∧ t.pc = s.pc + sext imm ∧ BytesSame s t ∧ StatusSame s t

/-- R151: BEQ goes to `pc + imm_B` when the registers hold the same pattern, else to `pc + 4`, and changes nothing else. -/
def Obligations.BeqBranchesOnEquality : Prop :=
  (∀ w : Word, opcodeOf w = 0b1100011 → funct3Of w = 0b000 →
    decode w = .instr (.beq (rs1Of w) (rs2Of w) (fieldB w))) ∧
  ∀ (rs1 rs2 : RegIdx) (imm : BitVec 13) (s : State), ∃ t, exec (.beq rs1 rs2 imm) s = .next t ∧
    (t.pc = if readReg s rs1 = readReg s rs2 then s.pc + sext imm else s.pc + 4) ∧
    RegsSame s t ∧ BytesSame s t ∧ StatusSame s t

/-- R152: BNE goes to `pc + imm_B` when the registers hold different patterns, else to `pc + 4`, and changes nothing else. -/
def Obligations.BneBranchesOnInequality : Prop :=
  (∀ w : Word, opcodeOf w = 0b1100011 → funct3Of w = 0b001 →
    decode w = .instr (.bne (rs1Of w) (rs2Of w) (fieldB w))) ∧
  ∀ (rs1 rs2 : RegIdx) (imm : BitVec 13) (s : State), ∃ t, exec (.bne rs1 rs2 imm) s = .next t ∧
    (t.pc = if readReg s rs1 = readReg s rs2 then s.pc + 4 else s.pc + sext imm) ∧
    RegsSame s t ∧ BytesSame s t ∧ StatusSame s t

/-! ## Environment call and gap -/

/-- 42_environment.md (R160): ECALL halts; no register and no byte of memory changes. The pc advance to `pc + 4` is
decision D13. -/
def Obligations.EcallHalts : Prop :=
  ∀ (b : BitVec 25) (s : State), ∃ t, exec (.ecall b) s = .next t ∧ t.status = .halted ∧ t.pc = s.pc + 4 ∧
    RegsSame s t ∧ BytesSame s t ∧ t.config = s.config

/-- R161: every word with opcode 0b1110011 halts the block exactly as the ECALL word does, whatever its other bits. -/
def Obligations.SystemWordsAllHalt : Prop :=
  ∀ s : State, s.status = .running → inRange s.config s.pc = true → opcodeOf (fetchedWord s) = 0b1110011 →
    ∃ t, step s = .next t ∧ exec (.ecall 0) s = .next t ∧ t.status = .halted ∧ RegsSame s t ∧ BytesSame s t

/-- 70_reset_and_hazards.md section 2 (R235): a run reaches Halted in the cycle of a SYSTEM-opcode word alone. -/
def Obligations.HaltOnlyBySystemWord : Prop :=
  ∀ s t : State, step s = .next t → t.status = .halted →
    inRange s.config s.pc = true ∧ opcodeOf (fetchedWord s) = 0b1110011

/-- R122: the all-zero word is skipped: the cycle changes nothing but the pc, which advances by 4. -/
def Obligations.GapSkips : Prop :=
  (∀ s : State, ∃ t, exec .gap s = .next t ∧ t.pc = s.pc + 4 ∧ RegsSame s t ∧ BytesSame s t ∧ StatusSame s t) ∧
  (∀ s : State, s.status = .running → inRange s.config s.pc = true → fetchedWord s = 0 → step s = exec .gap s)

/-! ## Loads and stores -/

/-- 43_load_store.md (R165; decisions D4, D8): in range, LW completes with the four bytes at `x[rs1] + imm_I`, the lowest
address most significant, in `rd`. -/
def Obligations.LwLoadsBigEndianWord : Prop :=
  (∀ w : Word, opcodeOf w = 0b0000011 → funct3Of w = 0b010 →
    decode w = .instr (.lw (rdOf w) (rs1Of w) (fieldI w))) ∧
  ∀ (rd rs1 : RegIdx) (imm : BitVec 12) (s : State), inRange s.config (effectiveAddress s rs1 imm) = true →
    ∃ t, exec (.lw rd rs1 imm) s = .next t ∧
      RegsAfter s t rd (readByte s (byteAddress s.config (effectiveAddress s rs1 imm) 0) ++
        readByte s (byteAddress s.config (effectiveAddress s rs1 imm) 1) ++
        readByte s (byteAddress s.config (effectiveAddress s rs1 imm) 2) ++
        readByte s (byteAddress s.config (effectiveAddress s rs1 imm) 3)) ∧
      effectiveAddress s rs1 imm = readReg s rs1 + sext imm ∧
      t.pc = s.pc + 4 ∧ BytesSame s t ∧ StatusSame s t

/-- 43_load_store.md (R165) and 60_exceptions.md section 1 (decisions D9, D12): out of range, LW raises
MemoryOutOfRange(LOAD) with the effective address, and nothing else changes. -/
def Obligations.LwOutOfRangeRaises : Prop :=
  ∀ (rd rs1 : RegIdx) (imm : BitVec 12) (s : State), inRange s.config (effectiveAddress s rs1 imm) = false →
    ∃ t, exec (.lw rd rs1 imm) s = .next t ∧
      t.status = .error (.memoryOutOfRange s.pc .load (readReg s rs1 + sext imm)) ∧
      t.pc = s.pc ∧ RegsSame s t ∧ BytesSame s t ∧ t.config = s.config

/-- 43_load_store.md (R166) and 20_memory.md section 3 (R57; decision D8): in range, SW completes: the four bytes at
`x[rs1] + imm_S` read as `x[rs2]`, big-endian, every other byte reads as before, and no register changes. -/
def Obligations.SwStoresBigEndianWord : Prop :=
  (∀ w : Word, opcodeOf w = 0b0100011 → funct3Of w = 0b010 →
    decode w = .instr (.sw (rs1Of w) (rs2Of w) (fieldS w))) ∧
  ∀ (rs1 rs2 : RegIdx) (imm : BitVec 12) (s : State), Memory.wf s.mem = true →
    inRange s.config (effectiveAddress s rs1 imm) = true →
    ∃ t, exec (.sw rs1 rs2 imm) s = .next t ∧
      readByte t (byteAddress s.config (effectiveAddress s rs1 imm) 0) = (readReg s rs2).extractLsb' 24 8 ∧
      readByte t (byteAddress s.config (effectiveAddress s rs1 imm) 1) = (readReg s rs2).extractLsb' 16 8 ∧
      readByte t (byteAddress s.config (effectiveAddress s rs1 imm) 2) = (readReg s rs2).extractLsb' 8 8 ∧
      readByte t (byteAddress s.config (effectiveAddress s rs1 imm) 3) = (readReg s rs2).extractLsb' 0 8 ∧
      (∀ a, touches s.config (effectiveAddress s rs1 imm) a = false → readByte t a = readByte s a) ∧
      effectiveAddress s rs1 imm = readReg s rs1 + sext imm ∧
      t.pc = s.pc + 4 ∧ RegsSame s t ∧ StatusSame s t

/-- 43_load_store.md (R166) and 20_memory.md section 6 (R71; decisions D9, D12): out of range, SW raises
MemoryOutOfRange(STORE) and no byte is written. -/
def Obligations.SwOutOfRangeRaises : Prop :=
  ∀ (rs1 rs2 : RegIdx) (imm : BitVec 12) (s : State), inRange s.config (effectiveAddress s rs1 imm) = false →
    ∃ t, exec (.sw rs1 rs2 imm) s = .next t ∧
      t.status = .error (.memoryOutOfRange s.pc .store (readReg s rs1 + sext imm)) ∧
      t.pc = s.pc ∧ RegsSame s t ∧ BytesSame s t ∧ t.config = s.config

/-- 20_memory.md section 2 (R53, R54; decisions D6, D9, D18): an in-range access touches present bytes only, without wrap
in strict mode and modulo 2^32 in sparse mode. -/
def Obligations.AccessTouchesPresentBytes : Prop :=
  ∀ (c : Config) (addr : Word) (i : Nat), c.wf = true → inRange c addr = true → i < 4 →
    byteAddress c addr i < presentLimit c ∧ presentLimit c ≤ 2 ^ 32 ∧
    (c.memoryMode = .strict → byteAddress c addr i = addr.toNat + i) ∧
    byteAddress c addr i = (addr.toNat + i) % 2 ^ 32

/-- 20_memory.md section 2 (R54, decision D18): in sparse mode no step raises MemoryOutOfRange. -/
def Obligations.SparseModeNeverOutOfRange : Prop :=
  ∀ s t : State, s.config.memoryMode = .sparse → step s = .next t →
    ∀ (pc addr : Word) (kind : AccessKind), t.status ≠ .error (.memoryOutOfRange pc kind addr)

/-- 20_memory.md section 6 (R66): LW from the address an SW just stored to gives the stored register value. -/
def Obligations.LoadAfterStoreReturnsWord : Prop :=
  ∀ (s t : State) (rd rs1 rs2 : RegIdx) (imm : BitVec 12), Memory.wf s.mem = true →
    inRange s.config (effectiveAddress s rs1 imm) = true → exec (.sw rs1 rs2 imm) s = .next t →
    ∃ u, exec (.lw rd rs1 imm) t = .next u ∧ RegsAfter t u rd (readReg s rs2)

/-- 20_memory.md section 4 (R60, derived by the spec): LW one byte above an SW sees the three stored bytes it overlaps and
the old byte above them. -/
def Obligations.OverlappingLoadSeesStoredBytes : Prop :=
  ∀ (s t : State) (rd rs1 rs2 rs3 : RegIdx) (imm imm' : BitVec 12), s.config.wf = true → Memory.wf s.mem = true →
    inRange s.config (effectiveAddress s rs1 imm) = true → exec (.sw rs1 rs2 imm) s = .next t →
    effectiveAddress t rs3 imm' = effectiveAddress s rs1 imm + 1 → inRange s.config (effectiveAddress t rs3 imm') = true →
    ∃ u, exec (.lw rd rs3 imm') t = .next u ∧
      RegsAfter t u rd ((readReg s rs2).extractLsb' 0 24 ++
        readByte s (byteAddress s.config (effectiveAddress s rs1 imm) 4))

/-- 20_memory.md section 6 (R69, derived by the spec): a store over the word at `pc + 4` is what the next cycle fetches, in
either fetch order. -/
def Obligations.StoreToNextInstructionIsFetched : Prop :=
  ∀ (s t : State) (rs1 rs2 : RegIdx) (imm : BitVec 12) (i : Instr), s.status = .running → Memory.wf s.mem = true →
    effectiveAddress s rs1 imm = s.pc + 4 → inRange s.config (s.pc + 4) = true →
    exec (.sw rs1 rs2 imm) s = .next t →
    decode (wordOfBytes s.config.fetchOrder ((readReg s rs2).extractLsb' 24 8) ((readReg s rs2).extractLsb' 16 8)
      ((readReg s rs2).extractLsb' 8 8) ((readReg s rs2).extractLsb' 0 8)) = .instr i →
    step t = exec i t

/-- Two canonical memories that read alike at every address are equal, so equal memories are equal data. -/
def Obligations.CanonicalMemoriesEqualByReads : Prop :=
  ∀ m m' : Memory, Memory.wf m = true → Memory.wf m' = true → (∀ a, Memory.read m a = Memory.read m' a) → m = m'

/-! ## Integer instructions -/

/-- R175: ADDI writes `x[rs1] + imm_I`, modulo 2^32. -/
def Obligations.AddiAddsImmediate : Prop :=
  (∀ w : Word, opcodeOf w = 0b0010011 → funct3Of w = 0b000 →
    decode w = .instr (.addi (rdOf w) (rs1Of w) (fieldI w))) ∧
  ∀ (rd rs1 : RegIdx) (imm : BitVec 12) (s : State), ∃ t v, exec (.addi rd rs1 imm) s = .next t ∧
    RegsAfter s t rd v ∧ (v.toNat : Int) = ((readReg s rs1).toNat + imm.toInt) % 2 ^ 32 ∧
    t.pc = s.pc + 4 ∧ BytesSame s t ∧ StatusSame s t

/-- 44_integer_immediate.md (R176; the low 32 bits are decision D3): SLLI shifts left by the immediate's low five bits,
whatever its other bits. -/
def Obligations.SlliShiftsLeft : Prop :=
  (∀ w : Word, opcodeOf w = 0b0010011 → funct3Of w = 0b001 →
    decode w = .instr (.slli (rdOf w) (rs1Of w) (fieldI w))) ∧
  ∀ (rd rs1 : RegIdx) (imm : BitVec 12) (s : State), ∃ t v, exec (.slli rd rs1 imm) s = .next t ∧
    RegsAfter s t rd v ∧ v.toNat = (readReg s rs1).toNat * 2 ^ (imm.toNat % 32) % 2 ^ 32 ∧
    t.pc = s.pc + 4 ∧ BytesSame s t ∧ StatusSame s t

/-- R177: ORI writes `x[rs1] | imm_I`, the immediate sign-extended first: bits 31 to 11 are set if its sign bit is. -/
def Obligations.OriOrsImmediate : Prop :=
  (∀ w : Word, opcodeOf w = 0b0010011 → funct3Of w = 0b110 →
    decode w = .instr (.ori (rdOf w) (rs1Of w) (fieldI w))) ∧
  ∀ (rd rs1 : RegIdx) (imm : BitVec 12) (s : State), ∃ t v, exec (.ori rd rs1 imm) s = .next t ∧
    RegsAfter s t rd v ∧
    (∀ k, k < 32 → v.getLsbD k = ((readReg s rs1).getLsbD k || if k < 12 then imm.getLsbD k else imm.getLsbD 11)) ∧
    t.pc = s.pc + 4 ∧ BytesSame s t ∧ StatusSame s t

/-- R178: LUI writes `{imm_U, 0x000}`. -/
def Obligations.LuiLoadsUpper : Prop :=
  (∀ w : Word, opcodeOf w = 0b0110111 →
    decode w = .instr (.lui (rdOf w) (fieldU w))) ∧
  ∀ (rd : RegIdx) (imm : BitVec 20) (s : State), ∃ t v, exec (.lui rd imm) s = .next t ∧
    RegsAfter s t rd v ∧ v = imm ++ (0 : BitVec 12) ∧ t.pc = s.pc + 4 ∧ BytesSame s t ∧ StatusSame s t

/-- R179: AUIPC writes its own pc plus `{imm_U, 0x000}`, modulo 2^32. -/
def Obligations.AuipcAddsUpperToPc : Prop :=
  (∀ w : Word, opcodeOf w = 0b0010111 →
    decode w = .instr (.auipc (rdOf w) (fieldU w))) ∧
  ∀ (rd : RegIdx) (imm : BitVec 20) (s : State), ∃ t v, exec (.auipc rd imm) s = .next t ∧
    RegsAfter s t rd v ∧ v = s.pc + (imm ++ (0 : BitVec 12)) ∧ t.pc = s.pc + 4 ∧ BytesSame s t ∧ StatusSame s t

/-- R190: XOR writes the bitwise exclusive or. -/
def Obligations.XorXorsRegisters : Prop :=
  (∀ w : Word, opcodeOf w = 0b0110011 → funct3Of w = 0b100 → funct7Of w = 0b0000000 →
    decode w = .instr (.xor (rdOf w) (rs1Of w) (rs2Of w))) ∧
  ∀ (rd rs1 rs2 : RegIdx) (s : State), ∃ t v, exec (.xor rd rs1 rs2) s = .next t ∧
    RegsAfter s t rd v ∧ (∀ k, v.getLsbD k = ((readReg s rs1).getLsbD k != (readReg s rs2).getLsbD k)) ∧
    t.pc = s.pc + 4 ∧ BytesSame s t ∧ StatusSame s t

/-- R191: SRL shifts right by the low five bits of `x[rs2]`, filling with zeros; bit 31 of the result is 0 unless the
amount is 0. -/
def Obligations.SrlShiftsRightZeroFilling : Prop :=
  (∀ w : Word, opcodeOf w = 0b0110011 → funct3Of w = 0b101 → funct7Of w = 0b0000000 →
    decode w = .instr (.srl (rdOf w) (rs1Of w) (rs2Of w))) ∧
  ∀ (rd rs1 rs2 : RegIdx) (s : State), ∃ t v, exec (.srl rd rs1 rs2) s = .next t ∧
    RegsAfter s t rd v ∧ v.toNat = (readReg s rs1).toNat / 2 ^ ((readReg s rs2).toNat % 32) ∧
    ((readReg s rs2).toNat % 32 ≠ 0 → v.getLsbD 31 = false) ∧
    t.pc = s.pc + 4 ∧ BytesSame s t ∧ StatusSame s t

/-- R192: REM writes the dividend when the divisor is 0, 0 for INT32_MIN by -1, and otherwise the truncated signed
remainder, whose sign follows the dividend. It raises nothing. -/
def Obligations.RemTruncatedRemainder : Prop :=
  (∀ w : Word, opcodeOf w = 0b0110011 → funct3Of w = 0b110 → funct7Of w = 0b0000001 →
    decode w = .instr (.rem (rdOf w) (rs1Of w) (rs2Of w))) ∧
  ∀ (rd rs1 rs2 : RegIdx) (s : State), ∃ t v, exec (.rem rd rs1 rs2) s = .next t ∧
    RegsAfter s t rd v ∧ (readReg s rs2 = 0 → v = readReg s rs1) ∧
    (readReg s rs1 = 0x80000000 → readReg s rs2 = 0xFFFFFFFF → v = 0) ∧
    (readReg s rs2 ≠ 0 → v.toInt = Int.tmod (readReg s rs1).toInt (readReg s rs2).toInt) ∧
    t.pc = s.pc + 4 ∧ BytesSame s t ∧ StatusSame s t

/-- 45_integer_register.md (R192, corner cases): for a nonzero divisor the remainder's magnitude is less than the
divisor's, it is 0 or has the dividend's sign, and it differs from the dividend by a multiple of the divisor. -/
def Obligations.RemainderBounds : Prop :=
  ∀ a b : Word, b ≠ 0 →
    (rem32 a b).toInt.natAbs < b.toInt.natAbs ∧ ((rem32 a b).toInt = 0 ∨ (rem32 a b).toInt.sign = a.toInt.sign) ∧
    b.toInt ∣ a.toInt - (rem32 a b).toInt

/-- 30_encoding.md section 7 (R105, the spec's general knowledge, not in the source; log entry 14, PRESUMED): the two parts
of `li rd, imm`, LUI's and ADDI's, add up to any 32-bit value. -/
def Obligations.LoadImmediatePartsAddUp : Prop := ∀ imm : Word, upper (hi20 imm) + sext (lo12 imm) = imm

/-! ## The cycle and the errors -/

/-- 40_cycle_and_datapath.md section 1 (R123, R124, R126): in a Running state whose fetch is in range, when the word at the
pc, in FETCH_BYTE_ORDER, decodes to `i`, the step is `exec i`. Nothing is added around it. -/
def Obligations.StepRunsDecodedInstruction : Prop :=
  ∀ (s : State) (i : Instr), s.status = .running → inRange s.config s.pc = true → decode (fetchedWord s) = .instr i →
    step s = exec i s

/-- 40_cycle_and_datapath.md section 1 (R121, decisions D7, D12): a fetch out of range raises MemoryOutOfRange(FETCH) at the
pc, and nothing else happens. -/
def Obligations.FetchOutOfRangeRaises : Prop :=
  ∀ s : State, s.status = .running → inRange s.config s.pc = false →
    step s = .next { s with status := .error (.memoryOutOfRange s.pc .fetch s.pc) }

/-- R100, R202: a fetched word that matches no row of the table raises UnimplementedInstruction with the pc and the
opcode, funct3 and funct7 as they stand in the word, and the run stops there. -/
def Obligations.UnimplementedWordRaises : Prop :=
  ∀ s : State, s.status = .running → inRange s.config s.pc = true →
    (∀ r ∈ opcodeTable, r.matches (fetchedWord s) = false) →
    ∃ t, step s = .next t ∧
      t.status = .error (.unimplementedInstruction s.pc ((fetchedWord s).extractLsb' 0 7)
        ((fetchedWord s).extractLsb' 12 3) ((fetchedWord s).extractLsb' 25 7)) ∧
      ∀ u, step t ≠ .next u

/-- 60_exceptions.md sections 1 and 3 (R203, R207; decision D12): a step that raises an error commits nothing but the
status, and the record names the pc of the failing instruction. -/
def Obligations.ErrorsCommitNothing : Prop :=
  ∀ (s t : State) (e : ErrorRecord), step s = .next t → t.status = .error e →
    t = { s with status := .error e } ∧ e.pc = s.pc

/-- 60_exceptions.md section 2 (R206; decision D19, with D7, D8, D9 for the range checks and D12 for the
record): the checks of a cycle, in their order, decide the status after it. -/
def Obligations.StatusAfterStep : Prop := ∀ s t : State, step s = .next t → t.status = statusAfter s

/-- 10_state.md section 2 (R26; the ECALL row is decision D13, the wrap D10): after a cycle that raised no error the pc is the taken
target, else `pc + 4`. -/
def Obligations.PcAfterStep : Prop :=
  ∀ s t : State, step s = .next t → t.errored = false → t.pc = pcAfter s

/-- R137: every cycle of a Running state finishes in that step. -/
def Obligations.EveryRunningStepCompletes : Prop := ∀ s : State, s.status = .running → ∃ t, step s = .next t

/-- 40_cycle_and_datapath.md section 1 (R120) and 10_state.md section 3 (R29; decision D14): no cycle runs in a stopped
state. That the model answers a fault there is its own choice (log entry 3). -/
def Obligations.StoppedMachineRunsNoCycle : Prop :=
  ∀ s : State, step s = .fault .notRunning ↔ s.status ≠ .running

/-- 10_state.md section 1 (R24, derived by the spec): a step changes no register but the destination of the instruction it
runs. -/
def Obligations.StepWritesOnlyDestination : Prop :=
  ∀ (s t : State) (r : RegIdx), step s = .next t → readReg t r ≠ readReg s r →
    ∃ i, inRange s.config s.pc = true ∧ decode (fetchedWord s) = .instr i ∧ i.writes = some r ∧ r ≠ 0

/-- 10_state.md section 1 (R24) and 40_cycle_and_datapath.md section 2 (R130): a step changes no byte of memory but the four
that an in-range SW stores to. -/
def Obligations.StepStoresOnlyBySw : Prop :=
  ∀ (s t : State) (a : Nat), step s = .next t → readByte t a ≠ readByte s a →
    ∃ rs1 rs2 imm, decode (fetchedWord s) = .instr (.sw rs1 rs2 imm) ∧
      inRange s.config (effectiveAddress s rs1 imm) = true ∧
      touches s.config (effectiveAddress s rs1 imm) a = true

/-- 10_state.md section 1 (R24, derived by the spec): the registers an instruction does not read have no influence on the
pc, the memory, the status or the value it writes. -/
def Obligations.ExecReadsOnlyNamedRegisters : Prop :=
  ∀ (i : Instr) (s s' t : State), s.status = .running → s'.status = .running → s'.pc = s.pc → s'.mem = s.mem →
    s'.config = s.config → (∀ r ∈ i.reads, readReg s' r = readReg s r) → exec i s = .next t →
    ∃ t', exec i s' = .next t' ∧ t'.pc = t.pc ∧ t'.mem = t.mem ∧ t'.status = t.status ∧
      ∀ r, i.writes = some r → t.errored = false → readReg t' r = readReg t r

/-- 40_cycle_and_datapath.md section 2 (R130 to R136; decision D2; the selects and format of
don't-care rows are the model's choice, log entry 9): the control table, through the ALU, the muxes and the pc
controller, computes exactly what the instruction rules give, for every word that is not UNIMPL. -/
def Obligations.DatapathComputesInstructionRules : Prop :=
  ∀ (w : Word) (i : Instr) (s : State), decode w = .instr i → datapathWord w s = exec i s

/-! ## Host interface -/

/-- 00_scope.md section 4 (R11, R58): a word placed where the next instruction is fetched is the word the fetch gives, and
nothing else changes (log entry 5). -/
def Obligations.PlacedWordIsFetched : Prop :=
  ∀ (s : State) (nbits w : Nat), Memory.wf s.mem = true → inRange s.config s.pc = true →
    fetch (s.withFetchWord nbits w) (s.withFetchWord nbits w).pc = .ok (BitVec.ofNat 32 (w % 2 ^ nbits)) ∧
    (∀ a, touches s.config s.pc a = false → readByte (s.withFetchWord nbits w) a = readByte s a) ∧
    RegsSame s (s.withFetchWord nbits w) ∧ (s.withFetchWord nbits w).pc = s.pc ∧ StatusSame s (s.withFetchWord nbits w)

/-- 70_reset_and_hazards.md section 2 (R236; decision D21): a run that ends in an ECALL passes if and only if register 10
is 1 there, and a run that ends in an error does not pass. -/
def Obligations.DriverPassAtEnd : Prop :=
  (∀ (b : BitVec 25) (s t : State), exec (.ecall b) s = .next t → (t.driverPass = true ↔ readReg s 10 = 1)) ∧
  (∀ s t : State, step s = .next t → t.errored = true → t.driverPass = false)
end

