-- ==== Sys2Proof/Laws/Config.lean ====
section
/-! SUPPORT. The parameters' checks as arithmetic. -/

namespace Sys2Proof.Machine

theorem config_wf_iff (c : Config) : c.wf = true ↔ 1 ≤ c.memSize ∧ c.memSize ≤ 4294967296 := by
  simp [Config.wf]

theorem inRange_strict {c : Config} (h : c.memoryMode = .strict) (addr : Word) :
    inRange c addr = true ↔ addr.toNat + 4 ≤ c.memSize := by simp [inRange, h]

theorem inRange_sparse {c : Config} (h : c.memoryMode = .sparse) (addr : Word) : inRange c addr = true := by
  simp [inRange, h]

theorem byteAddress_strict {c : Config} (h : c.memoryMode = .strict) (addr : Word) (i : Nat) :
    byteAddress c addr i = addr.toNat + i := by simp [byteAddress, h]

theorem byteAddress_sparse {c : Config} (h : c.memoryMode = .sparse) (addr : Word) (i : Nat) :
    byteAddress c addr i = (addr.toNat + i) % 4294967296 := by simp [byteAddress, h]

end Sys2Proof.Machine
end

