-- ==== Sys2Proof/Laws/Decode.lean ====
section
/-! SUPPORT. The decoder: which level of the dispatch tree decides, said once. -/

namespace Sys2Proof

theorem dispatchOp_zero : dispatchOp 0 = .gap := by decide

/-- A word whose opcode is not zero goes to the tree. -/
theorem dispatchOp_of_opcode {w : Word} (h : opcodeOf w ≠ 0) :
    dispatchOp w = groupOp (opcodeOf w) (funct3Of w) (funct7Of w) := by
  have hw : w ≠ 0 := fun h0 => h (by rw [h0]; decide)
  rw [dispatchOp, if_neg hw]

/-- The instruction decoded is one of the operation dispatched. -/
theorem op_of_decode {w : Word} {i : Instr} (h : decode w = .instr i) : i.op = dispatchOp w := by
  unfold decode at h
  split at h <;> rename_i ho <;> rw [ho] <;> cases h <;> rfl

/-- A word that is not UNIMPL decodes to an instruction. -/
theorem decode_of_op {w : Word} (h : dispatchOp w ≠ .unimpl) : ∃ i, decode w = .instr i ∧ i.op = dispatchOp w := by
  cases hd : decode w with
  | instr i => exact ⟨i, rfl, op_of_decode hd⟩
  | unimplemented a b c =>
    unfold decode at hd
    split at hd <;> first | exact absurd ‹_› h | cases hd

/-- UNIMPL is reported with the word's own fields (60_exceptions.md R202). -/
theorem decode_unimplemented {w : Word} {a : BitVec 7} {b : BitVec 3} {c : BitVec 7} (h : decode w = .unimplemented a b c) :
    dispatchOp w = .unimpl ∧ a = opcodeOf w ∧ b = funct3Of w ∧ c = funct7Of w := by
  unfold decode at h
  split at h <;> cases h
  exact ⟨‹_›, rfl, rfl, rfl⟩

theorem branchOp_ne_ecall (f : BitVec 3) : branchOp f ≠ .ecall := by revert f; decide
theorem opImmOp_ne_ecall (f : BitVec 3) : opImmOp f ≠ .ecall := by revert f; decide
theorem opOp_ne_ecall (f : BitVec 3) (g : BitVec 7) : opOp f g ≠ .ecall := by
  unfold opOp
  split
  · decide
  split
  · decide
  split <;> decide

/-- ECALL is dispatched by the opcode alone (30_encoding.md R95). -/
theorem dispatchOp_eq_ecall (w : Word) : dispatchOp w = .ecall ↔ opcodeOf w = 0b1110011 := by
  constructor
  · intro h
    by_contra ho
    unfold dispatchOp groupOp at h
    split at h
    · cases h
    split at h
    · cases h
    split at h
    · exact branchOp_ne_ecall _ h
    split at h
    · split at h <;> cases h
    split at h
    · split at h <;> cases h
    split at h
    · exact opImmOp_ne_ecall _ h
    split at h
    · cases h
    split at h
    · cases h
    split at h
    · exact opOp_ne_ecall _ _ h
    · cases h
  · intro h
    rw [dispatchOp_of_opcode (by rw [h]; decide), groupOp, h]
    rfl

end Sys2Proof
end

