-- ==== Sys2Proof/Laws/Memory.lean ====
section
/-! SUPPORT. Memory: read after write, and that every memory operation keeps the canonical form. -/

namespace Sys2Proof.Machine

theorem Memory.read_nil (a : Nat) : Memory.read [] a = unlistedByte := rfl

/-- A write leaves every other address alone, whatever the list. -/
theorem Memory.read_write_other (m : Memory) {a a' : Nat} (b : Byte) (h : a' ≠ a) :
    Memory.read (Memory.write m a b) a' = Memory.read m a' := by
  have h' : a ≠ a' := Ne.symm h
  induction m with
  | nil => by_cases hb : b = unlistedByte <;> simp [Memory.write, Memory.read, hb, h']
  | cons c m ih =>
    obtain ⟨k, x⟩ := c
    unfold Memory.write
    split_ifs with h1 h2 h3 h4
    · rfl
    · simp [Memory.read, h']
    · subst h3; simp [Memory.read, h']
    · subst h3; simp [Memory.read, h']
    · simp [Memory.read, ih]

/-- A lower start is a weaker condition. -/
theorem Memory.wfFrom_mono {lo lo' : Nat} (h : lo ≤ lo') : ∀ {m : Memory}, Memory.wfFrom lo' m → Memory.wfFrom lo m
  | [], _ => rfl
  | (a, b) :: m, hm => by
    simp only [Memory.wfFrom, Bool.and_eq_true, decide_eq_true_eq] at hm ⊢
    exact ⟨⟨by omega, hm.1.2⟩, hm.2⟩

/-- Below its first address a canonical list holds nothing. -/
theorem Memory.read_of_wfFrom {lo a : Nat} (h : a < lo) : ∀ {m : Memory}, Memory.wfFrom lo m → Memory.read m a = unlistedByte
  | [], _ => rfl
  | (k, x) :: m, hm => by
    simp only [Memory.wfFrom, Bool.and_eq_true, decide_eq_true_eq] at hm
    have hk : k ≠ a := by omega
    simp [Memory.read, hk, Memory.read_of_wfFrom (show a < k + 1 by omega) hm.2]

theorem Memory.wfFrom_write {lo a : Nat} (b : Byte) (ha : lo ≤ a) :
    ∀ {m : Memory}, Memory.wfFrom lo m → Memory.wfFrom lo (Memory.write m a b)
  | [], _ => by
    by_cases hb : b = unlistedByte <;> simp [Memory.write, Memory.wfFrom, hb, ha]
  | (k, x) :: m, hm => by
    have hm0 := hm
    simp only [Memory.wfFrom, Bool.and_eq_true, decide_eq_true_eq] at hm
    unfold Memory.write
    split_ifs with h1 h2 h3 h4
    · exact hm0
    · simp only [Memory.wfFrom, Bool.and_eq_true, decide_eq_true_eq]
      exact ⟨⟨ha, by simpa using h2⟩, ⟨by omega, hm.1.2⟩, hm.2⟩
    · exact Memory.wfFrom_mono (by omega) hm.2
    · simp only [Memory.wfFrom, Bool.and_eq_true, decide_eq_true_eq]
      exact ⟨⟨ha, by simpa using h4⟩, by subst h3; exact hm.2⟩
    · simp only [Memory.wfFrom, Bool.and_eq_true, decide_eq_true_eq]
      exact ⟨hm.1, Memory.wfFrom_write b (by omega) hm.2⟩

/-- A write keeps the canonical form. -/
theorem Memory.wf_write {m : Memory} (a : Nat) (b : Byte) (h : Memory.wf m) : Memory.wf (Memory.write m a b) :=
  Memory.wfFrom_write b (Nat.zero_le a) h

theorem Memory.read_writeFrom_same {lo a : Nat} (b : Byte) :
    ∀ {m : Memory}, Memory.wfFrom lo m → Memory.read (Memory.write m a b) a = b
  | [], _ => by
    by_cases hb : b = unlistedByte <;> simp [Memory.write, Memory.read, hb]
  | (k, x) :: m, hm => by
    simp only [Memory.wfFrom, Bool.and_eq_true, decide_eq_true_eq] at hm
    unfold Memory.write
    split_ifs with h1 h2 h3 h4
    · have hk : k ≠ a := by omega
      simp [Memory.read, hk, h2, Memory.read_of_wfFrom (show a < k + 1 by omega) hm.2]
    · simp [Memory.read]
    · subst h3; simpa [h4] using Memory.read_of_wfFrom (Nat.lt_succ_self a) hm.2
    · simp [Memory.read]
    · have hk : k ≠ a := fun h => h3 h.symm
      simp [Memory.read, hk, Memory.read_writeFrom_same b hm.2]

/-- A read of the address just written gives the byte, in a canonical list. -/
theorem Memory.read_write_same {m : Memory} (a : Nat) (b : Byte) (h : Memory.wf m) :
    Memory.read (Memory.write m a b) a = b :=
  Memory.read_writeFrom_same b h

/-- The byte at any address after one write. -/
theorem Memory.read_write {m : Memory} (a a' : Nat) (b : Byte) (h : Memory.wf m) :
    Memory.read (Memory.write m a b) a' = if a' = a then b else Memory.read m a' := by
  split_ifs with ha
  · rw [ha]; exact Memory.read_write_same a b h
  · exact Memory.read_write_other m b ha

/-- A write below the limit keeps every listed address below it. -/
theorem Memory.below_write {limit a : Nat} (b : Byte) (ha : a < limit) :
    ∀ {m : Memory}, Memory.below limit m → Memory.below limit (Memory.write m a b)
  | [], _ => by
    by_cases hb : b = unlistedByte <;> simp [Memory.write, Memory.below, hb, ha]
  | (k, x) :: m, hm => by
    have hm0 := hm
    simp only [Memory.below, List.all_cons, Bool.and_eq_true, decide_eq_true_eq] at hm
    unfold Memory.write
    split_ifs with h1 h2 h3 h4
    · exact hm0
    · simp only [Memory.below, List.all_cons, Bool.and_eq_true, decide_eq_true_eq]
      exact ⟨ha, hm⟩
    · exact hm.2
    · simp only [Memory.below, List.all_cons, Bool.and_eq_true, decide_eq_true_eq]
      exact ⟨ha, hm.2⟩
    · simp only [Memory.below, List.all_cons, Bool.and_eq_true, decide_eq_true_eq]
      exact ⟨hm.1, Memory.below_write b ha hm.2⟩

/-- Writing consecutive bytes keeps the canonical form. -/
theorem Memory.wf_writeBytes : ∀ (bs : List Byte) {m : Memory} (a : Nat), Memory.wf m → Memory.wf (Memory.writeBytes m a bs)
  | [], _, _, h => h
  | b :: bs, _, a, h => Memory.wf_writeBytes bs (a + 1) (Memory.wf_write a b h)

/-- Putting a word keeps the canonical form. -/
theorem putWord_wf (o : ByteOrder) (s : State) (addr v : Word) (h : Memory.wf s.mem) :
    Memory.wf (putWord o s addr v).mem :=
  Memory.wf_write _ _ (Memory.wf_write _ _ (Memory.wf_write _ _ (Memory.wf_write _ _ h)))

/-- Loading words keeps the canonical form. -/
theorem loadWords_wf : ∀ (ws : List (Word × Word)) (s : State), Memory.wf s.mem → Memory.wf (loadWords s ws).mem
  | [], _, h => h
  | (addr, w) :: rest, s, h => loadWords_wf rest _ (putWord_wf s.config.fetchOrder s addr w h)

/-- Reset memory has the canonical form, with any image. -/
theorem resetWith_wf (c : Config) (image : List Byte) : Memory.wf (State.resetWith c image).mem :=
  Memory.wf_writeBytes image 0 rfl

/-- The state after reset is the reset of the default parameters and the empty image. -/
theorem reset_eq_resetWith : State.reset = State.resetWith Config.default [] := rfl

/-- A byte outside the four that a word is put at reads as before, whatever the list. -/
theorem readByte_putWord_other (o : ByteOrder) (s : State) (addr v : Word) {a : Nat}
    (h : touches s.config addr a = false) : readByte (putWord o s addr v) a = readByte s a := by
  simp only [touches, Bool.or_eq_false_iff, beq_eq_false_iff_ne] at h
  obtain ⟨⟨⟨h0, h1⟩, h2⟩, h3⟩ := h
  simp only [readByte, putWord]
  rw [Memory.read_write_other _ _ h3, Memory.read_write_other _ _ h2, Memory.read_write_other _ _ h1,
    Memory.read_write_other _ _ h0]

/-- The four byte addresses of an access differ. -/
theorem byteAddress_inj (c : Config) (addr : Word) {i j : Nat} (hi : i < 4) (hj : j < 4)
    (h : byteAddress c addr i = byteAddress c addr j) : i = j := by
  have := addr.isLt
  unfold byteAddress addressSpace at h
  split at h <;> omega

/-- The byte at offset `i` of a word just put is the word's byte `i`, in a canonical list. -/
theorem readByte_putWord_same (o : ByteOrder) (s : State) (addr v : Word) (hm : Memory.wf s.mem) {i : Nat} (hi : i < 4) :
    readByte (putWord o s addr v) (byteAddress s.config addr i) = byteOfWord o v i := by
  have ne : ∀ {i j : Nat}, i < 4 → j < 4 → i ≠ j → byteAddress s.config addr i ≠ byteAddress s.config addr j :=
    fun hi hj hij h => hij (byteAddress_inj s.config addr hi hj h)
  have w0 := Memory.wf_write (byteAddress s.config addr 0) (byteOfWord o v 0) hm
  have w1 := Memory.wf_write (byteAddress s.config addr 1) (byteOfWord o v 1) w0
  have w2 := Memory.wf_write (byteAddress s.config addr 2) (byteOfWord o v 2) w1
  simp only [readByte, putWord]
  rw [Memory.read_write _ _ _ w2, Memory.read_write _ _ _ w1, Memory.read_write _ _ _ w0, Memory.read_write _ _ _ hm]
  have cases : i = 0 ∨ i = 1 ∨ i = 2 ∨ i = 3 := by omega
  obtain rfl | rfl | rfl | rfl := cases <;> simp [ne]

end Sys2Proof.Machine
end

