-- ==== Sys2Proof/Laws/PerInstr.lean ====
section
/-! SUPPORT. Statements made per instruction: the family `RowMatched`, one lemma per constructor of `Instr`. -/

namespace Sys2Proof.Laws.RowMatched

/-- The word an instruction encodes to matches its own row of the opcode table (30_encoding.md R96). -/
def Statement (i : Instr) : Prop := ∃ r ∈ opcodeTable, r.op = i.op ∧ r.matches (encode i) = true

/-- A word with the row's bits matches the row, checked bit by bit. -/
theorem matches_of_bits (r : Row) (w : Word)
    (h : ∀ k : Fin 32, (w.getLsbD k && r.mask.getLsbD k) = r.pattern.getLsbD k) : r.matches w = true := by
  simp only [Row.matches, beq_iff_eq]
  apply BitVec.eq_of_getLsbD_eq
  intro k hk
  simpa using h ⟨k, hk⟩

theorem jal (rd : RegIdx) (imm : BitVec 21) : Statement (.jal rd imm) := by
  refine ⟨⟨.jal, some .J, 0x0000006F, 0x0000007F⟩, by simp [opcodeTable], rfl, matches_of_bits _ _ fun k => ?_⟩
  simp only [encode, encodeJ, BitVec.getLsbD_append]
  fin_cases k <;> simp

theorem ecall (b : BitVec 25) : Statement (.ecall b) := by
  refine ⟨⟨.ecall, some .I, 0x00000073, 0x0000007F⟩, by simp [opcodeTable], rfl, matches_of_bits _ _ fun k => ?_⟩
  simp only [encode, BitVec.getLsbD_append]
  fin_cases k <;> simp

theorem beq (rs1 rs2 : RegIdx) (imm : BitVec 13) : Statement (.beq rs1 rs2 imm) := by
  refine ⟨⟨.beq, some .B, 0x00000063, 0x0000707F⟩, by simp [opcodeTable], rfl, matches_of_bits _ _ fun k => ?_⟩
  simp only [encode, encodeB, BitVec.getLsbD_append]
  fin_cases k <;> simp

theorem bne (rs1 rs2 : RegIdx) (imm : BitVec 13) : Statement (.bne rs1 rs2 imm) := by
  refine ⟨⟨.bne, some .B, 0x00001063, 0x0000707F⟩, by simp [opcodeTable], rfl, matches_of_bits _ _ fun k => ?_⟩
  simp only [encode, encodeB, BitVec.getLsbD_append]
  fin_cases k <;> simp

theorem lw (rd rs1 : RegIdx) (imm : BitVec 12) : Statement (.lw rd rs1 imm) := by
  refine ⟨⟨.lw, some .I, 0x00002003, 0x0000707F⟩, by simp [opcodeTable], rfl, matches_of_bits _ _ fun k => ?_⟩
  simp only [encode, encodeI, BitVec.getLsbD_append]
  fin_cases k <;> simp

theorem sw (rs1 rs2 : RegIdx) (imm : BitVec 12) : Statement (.sw rs1 rs2 imm) := by
  refine ⟨⟨.sw, some .S, 0x00002023, 0x0000707F⟩, by simp [opcodeTable], rfl, matches_of_bits _ _ fun k => ?_⟩
  simp only [encode, encodeS, BitVec.getLsbD_append]
  fin_cases k <;> simp

theorem addi (rd rs1 : RegIdx) (imm : BitVec 12) : Statement (.addi rd rs1 imm) := by
  refine ⟨⟨.addi, some .I, 0x00000013, 0x0000707F⟩, by simp [opcodeTable], rfl, matches_of_bits _ _ fun k => ?_⟩
  simp only [encode, encodeI, BitVec.getLsbD_append]
  fin_cases k <;> simp

theorem slli (rd rs1 : RegIdx) (imm : BitVec 12) : Statement (.slli rd rs1 imm) := by
  refine ⟨⟨.slli, some .I, 0x00001013, 0x0000707F⟩, by simp [opcodeTable], rfl, matches_of_bits _ _ fun k => ?_⟩
  simp only [encode, encodeI, BitVec.getLsbD_append]
  fin_cases k <;> simp

theorem ori (rd rs1 : RegIdx) (imm : BitVec 12) : Statement (.ori rd rs1 imm) := by
  refine ⟨⟨.ori, some .I, 0x00006013, 0x0000707F⟩, by simp [opcodeTable], rfl, matches_of_bits _ _ fun k => ?_⟩
  simp only [encode, encodeI, BitVec.getLsbD_append]
  fin_cases k <;> simp

theorem lui (rd : RegIdx) (imm : BitVec 20) : Statement (.lui rd imm) := by
  refine ⟨⟨.lui, some .U, 0x00000037, 0x0000007F⟩, by simp [opcodeTable], rfl, matches_of_bits _ _ fun k => ?_⟩
  simp only [encode, encodeU, BitVec.getLsbD_append]
  fin_cases k <;> simp

theorem auipc (rd : RegIdx) (imm : BitVec 20) : Statement (.auipc rd imm) := by
  refine ⟨⟨.auipc, some .U, 0x00000017, 0x0000007F⟩, by simp [opcodeTable], rfl, matches_of_bits _ _ fun k => ?_⟩
  simp only [encode, encodeU, BitVec.getLsbD_append]
  fin_cases k <;> simp

theorem xor (rd rs1 rs2 : RegIdx) : Statement (.xor rd rs1 rs2) := by
  refine ⟨⟨.xor, some .R, 0x00004033, 0xFE00707F⟩, by simp [opcodeTable], rfl, matches_of_bits _ _ fun k => ?_⟩
  simp only [encode, encodeR, BitVec.getLsbD_append]
  fin_cases k <;> simp

theorem srl (rd rs1 rs2 : RegIdx) : Statement (.srl rd rs1 rs2) := by
  refine ⟨⟨.srl, some .R, 0x00005033, 0xFE00707F⟩, by simp [opcodeTable], rfl, matches_of_bits _ _ fun k => ?_⟩
  simp only [encode, encodeR, BitVec.getLsbD_append]
  fin_cases k <;> simp

theorem rem (rd rs1 rs2 : RegIdx) : Statement (.rem rd rs1 rs2) := by
  refine ⟨⟨.rem, some .R, 0x02006033, 0xFE00707F⟩, by simp [opcodeTable], rfl, matches_of_bits _ _ fun k => ?_⟩
  simp only [encode, encodeR, BitVec.getLsbD_append]
  fin_cases k <;> simp

theorem gap : Statement .gap :=
  ⟨⟨.gap, none, 0x00000000, 0xFFFFFFFF⟩, by simp [opcodeTable], rfl, by decide⟩

end Sys2Proof.Laws.RowMatched
end

