-- ==== Sys2Proof/Laws/State.lean ====
section
/-! SUPPORT. One lemma per field for each update of the state. -/

namespace Sys2Proof.Machine

@[simp] theorem writeReg_pc (s : State) (r : RegIdx) (v : Word) : (writeReg s r v).pc = s.pc := by
  unfold writeReg; split <;> rfl
@[simp] theorem writeReg_mem (s : State) (r : RegIdx) (v : Word) : (writeReg s r v).mem = s.mem := by
  unfold writeReg; split <;> rfl
@[simp] theorem writeReg_status (s : State) (r : RegIdx) (v : Word) : (writeReg s r v).status = s.status := by
  unfold writeReg; split <;> rfl
@[simp] theorem writeReg_config (s : State) (r : RegIdx) (v : Word) : (writeReg s r v).config = s.config := by
  unfold writeReg; split <;> rfl
@[simp] theorem writeReg_zero (s : State) (v : Word) : writeReg s 0 v = s := rfl

@[simp] theorem putWord_pc (o : ByteOrder) (s : State) (addr v : Word) : (putWord o s addr v).pc = s.pc := rfl
@[simp] theorem putWord_regs (o : ByteOrder) (s : State) (addr v : Word) : (putWord o s addr v).regs = s.regs := rfl
@[simp] theorem putWord_status (o : ByteOrder) (s : State) (addr v : Word) : (putWord o s addr v).status = s.status := rfl
@[simp] theorem putWord_config (o : ByteOrder) (s : State) (addr v : Word) : (putWord o s addr v).config = s.config := rfl

@[simp] theorem halt_regs (s : State) : (halt s).regs = s.regs := rfl
@[simp] theorem halt_pc (s : State) : (halt s).pc = s.pc := rfl
@[simp] theorem halt_mem (s : State) : (halt s).mem = s.mem := rfl
@[simp] theorem halt_status (s : State) : (halt s).status = .halted := rfl
@[simp] theorem halt_config (s : State) : (halt s).config = s.config := rfl

@[simp] theorem advance_regs (o : Option Word) (s : State) : (advance o s).regs = s.regs := rfl
@[simp] theorem advance_pc (o : Option Word) (s : State) : (advance o s).pc = o.getD (s.pc + 4) := rfl
@[simp] theorem advance_mem (o : Option Word) (s : State) : (advance o s).mem = s.mem := rfl
@[simp] theorem advance_status (o : Option Word) (s : State) : (advance o s).status = s.status := rfl
@[simp] theorem advance_config (o : Option Word) (s : State) : (advance o s).config = s.config := rfl

end Sys2Proof.Machine
end

