-- ==== Sys2Proof/Laws/Registers.lean ====
section
/-! SUPPORT. Reading a register after each update. -/

namespace Sys2Proof.Machine

@[simp] theorem readReg_zero (s : State) : readReg s 0 = 0 := rfl

/-- Reading depends on the register file alone. -/
theorem readReg_congr {s t : State} (h : t.regs = s.regs) (r : RegIdx) : readReg t r = readReg s r := by
  simp [readReg, h]

@[simp] theorem readReg_advance (o : Option Word) (s : State) (r : RegIdx) : readReg (advance o s) r = readReg s r :=
  readReg_congr rfl r
@[simp] theorem readReg_halt (s : State) (r : RegIdx) : readReg (halt s) r = readReg s r := readReg_congr rfl r
@[simp] theorem readReg_putWord (o : ByteOrder) (s : State) (addr v : Word) (r : RegIdx) :
    readReg (putWord o s addr v) r = readReg s r := readReg_congr rfl r

/-- The register file after a write (10_state.md R21, R22), whichever register is written. -/
theorem readReg_writeReg (s : State) (i r : RegIdx) (v : Word) :
    readReg (writeReg s i v) r = if r = i ∧ i ≠ 0 then v else readReg s r := by
  by_cases hi : i = 0
  · simp [hi, writeReg]
  · by_cases hr : r = 0
    · simp [readReg, hr, Ne.symm hi]
    · simp [readReg, writeReg, hi, hr, Vector.getElem_set, Fin.ext_iff, eq_comm]

/-- Slot 0 of the register file is never stored to. -/
@[simp] theorem writeReg_regs_zero (s : State) (i : RegIdx) (v : Word) : (writeReg s i v).regs[0] = s.regs[0] := by
  by_cases hi : i = 0
  · simp [hi]
  · have : i.val ≠ 0 := fun h => hi (Fin.ext h)
    simp [writeReg, hi, this]

end Sys2Proof.Machine
end

