-- ==== Sys2Proof/Laws/Step.lean ====
section
/-! SUPPORT. What each memory primitive, each instruction and each step can do, said once. -/

namespace Sys2Proof.Machine

theorem memRead_inRange {s : State} {addr : Word} (h : inRange s.config addr = true) :
    memRead s addr = .ok (wordAt .big s addr) := by simp [memRead, h]
theorem memRead_outOfRange {s : State} {addr : Word} (h : inRange s.config addr = false) :
    memRead s addr = .error (.memoryOutOfRange s.pc .load addr) := by simp [memRead, h]
theorem memWrite_inRange {s : State} {addr : Word} (v : Word) (h : inRange s.config addr = true) :
    memWrite s addr v = .ok (putWord .big s addr v) := by simp [memWrite, h]
theorem memWrite_outOfRange {s : State} {addr : Word} (v : Word) (h : inRange s.config addr = false) :
    memWrite s addr v = .error (.memoryOutOfRange s.pc .store addr) := by simp [memWrite, h]
theorem fetch_inRange {s : State} {addr : Word} (h : inRange s.config addr = true) :
    fetch s addr = .ok (wordAt s.config.fetchOrder s addr) := by simp [fetch, h]
theorem fetch_outOfRange {s : State} {addr : Word} (h : inRange s.config addr = false) :
    fetch s addr = .error (.memoryOutOfRange s.pc .fetch addr) := by simp [fetch, h]

/-- The next states an instruction can give: an error with nothing committed, a register write, a store, a halt, or the
pc alone. -/
inductive Effect (i : Instr) (s t : State) : Prop where
  | error (kind : AccessKind) (addr : Word) (hr : inRange s.config addr = false)
      (ht : t = { s with status := .error (.memoryOutOfRange s.pc kind addr) })
  | register (rd : RegIdx) (v : Word) (o : Option Word) (hw : i.writes = some rd) (ht : t = advance o (writeReg s rd v))
  | store (rs1 rs2 : RegIdx) (imm : BitVec 12) (hi : i = .sw rs1 rs2 imm)
      (hr : inRange s.config (effectiveAddress s rs1 imm) = true)
      (ht : t = advance none (putWord .big s (effectiveAddress s rs1 imm) (readReg s rs2)))
  | stop (b : BitVec 25) (hi : i = .ecall b) (ht : t = advance none (halt s))
  | pcOnly (o : Option Word) (hw : i.writes = none) (ht : t = advance o s)

theorem finish_next {o : Option Word} {s t : State} (h : finish o s = .next t) : t = advance o s := by
  simpa [finish, eq_comm] using h

theorem raise_next {e : ErrorRecord} {s t : State} (h : raise e s = .next t) : t = { s with status := .error e } := by
  simpa [raise, eq_comm] using h

/-- What `exec` can do. -/
theorem exec_effect {i : Instr} {s t : State} (h : exec i s = .next t) : Effect i s t := by
  cases i with
  | jal rd imm => exact .register rd _ _ rfl (finish_next h)
  | ecall b => exact .stop b rfl (finish_next h)
  | beq rs1 rs2 imm => exact .pcOnly _ rfl (finish_next h)
  | bne rs1 rs2 imm => exact .pcOnly _ rfl (finish_next h)
  | lw rd rs1 imm =>
    simp only [exec, execLw] at h
    cases hr : inRange s.config (effectiveAddress s rs1 imm) with
    | true => rw [memRead_inRange hr] at h; exact .register rd _ _ rfl (finish_next h)
    | false => rw [memRead_outOfRange hr] at h; exact .error _ _ hr (raise_next h)
  | sw rs1 rs2 imm =>
    simp only [exec, execSw] at h
    cases hr : inRange s.config (effectiveAddress s rs1 imm) with
    | true => rw [memWrite_inRange _ hr] at h; exact .store rs1 rs2 imm rfl hr (finish_next h)
    | false => rw [memWrite_outOfRange _ hr] at h; exact .error _ _ hr (raise_next h)
  | addi rd rs1 imm => exact .register rd _ _ rfl (finish_next h)
  | slli rd rs1 imm => exact .register rd _ _ rfl (finish_next h)
  | ori rd rs1 imm => exact .register rd _ _ rfl (finish_next h)
  | lui rd imm => exact .register rd _ _ rfl (finish_next h)
  | auipc rd imm => exact .register rd _ _ rfl (finish_next h)
  | xor rd rs1 rs2 => exact .register rd _ _ rfl (finish_next h)
  | srl rd rs1 rs2 => exact .register rd _ _ rfl (finish_next h)
  | rem rd rs1 rs2 => exact .register rd _ _ rfl (finish_next h)
  | gap => exact .pcOnly _ rfl (finish_next h)

/-- The cases of a cycle that gives a next state, in the order of 60_exceptions.md R206. -/
inductive CycleCase (s t : State) : Prop where
  | fetchError (hr : inRange s.config s.pc = false)
      (ht : t = { s with status := .error (.memoryOutOfRange s.pc .fetch s.pc) })
  | unimplemented (opcode : BitVec 7) (funct3 : BitVec 3) (funct7 : BitVec 7) (hr : inRange s.config s.pc = true)
      (hd : decode (wordAt s.config.fetchOrder s s.pc) = .unimplemented opcode funct3 funct7)
      (ht : t = { s with status := .error (.unimplementedInstruction s.pc opcode funct3 funct7) })
  | instruction (i : Instr) (hr : inRange s.config s.pc = true)
      (hd : decode (wordAt s.config.fetchOrder s s.pc) = .instr i) (ht : exec i s = .next t)

/-- What a step can do. -/
theorem step_cases {s t : State} (h : step s = .next t) : s.status = .running ∧ CycleCase s t := by
  simp only [step, cycle] at h
  cases hs : s.status with
  | halted => simp [hs] at h
  | error e => simp [hs] at h
  | running =>
    refine ⟨rfl, ?_⟩
    simp only [hs, runningCycle] at h
    cases hr : inRange s.config s.pc with
    | false => rw [fetch_outOfRange hr] at h; exact .fetchError hr (raise_next h)
    | true =>
      rw [fetch_inRange hr] at h
      cases hd : decode (wordAt s.config.fetchOrder s s.pc) with
      | unimplemented a b c => simp only [hd] at h; exact .unimplemented a b c hr hd (raise_next h)
      | instr i => simp only [hd] at h; exact .instruction i hr hd h

end Sys2Proof.Machine
end

