-- ==== Sys2Proof/Tests/Slice0.lean ====
section
/-! SUPPORT. Tests on words and values of spec/95_test_vectors.md (the section is named at each group), and a witness that
the hypotheses of each statement can be met. -/

namespace Sys2Proof.Tests

open Sys2Proof Sys2Proof.Machine

/-! ## Helpers -/

/-- The next state of an outcome. -/
def next? : Outcome → Option State
  | .next t => some t
  | .fault _ => none
  | .refused _ => none

/-- An outcome is a next state with a property, from a computation. -/
theorem exists_next {o : Outcome} {p : State → Bool} (h : (next? o).any p = true) : ∃ t, o = .next t ∧ p t = true := by
  cases o with
  | next t => exact ⟨t, rfl, by simpa [next?] using h⟩
  | fault f => simp [next?] at h
  | refused r => simp [next?] at h

/-- The conventions of 95_test_vectors.md: strict, MEM_SIZE 0x200, big-endian fetch. -/
def strict200 : Config := ⟨.strict, 0x200, .big⟩

/-- The same parameters in sparse mode. -/
def sparse200 : Config := ⟨.sparse, 0x200, .big⟩

/-- A state at `pc` with the word there, and the listed registers. -/
def at' (c : Config) (pc w : Word) (rs : List (RegIdx × Word)) : State :=
  putWord .big (rs.foldl (fun s p => writeReg s p.1 p.2) { State.reset with config := c, pc := pc }) pc w

/-- With bytes placed in memory. -/
def withBytes (s : State) (a : Nat) (bs : List Byte) : State := { s with mem := Memory.writeBytes s.mem a bs }

/-- One step from `at'` under `strict200`: the value of a register and the pc after it. -/
def regAfter (pc w : Word) (rs : List (RegIdx × Word)) (r : RegIdx) : Option (Word × Word) :=
  (next? (step (at' strict200 pc w rs))).map fun t => (readReg t r, t.pc)

/-- One step: the status and the pc after it. -/
def statusOf (s : State) : Option (Status × Word) := (next? (step s)).map fun t => (t.status, t.pc)

/-- One step: four bytes of memory after it, by address. -/
def bytesOf (s : State) (as : List Nat) : Option (List Byte) := (next? (step s)).map fun t => as.map (readByte t)

/-! ## WellFormed: an ill-formed term for each check (30_encoding.md R86, R88) -/

theorem test_illformed_jal_odd : (Instr.jal 1 0x000001).wellFormed = false := by decide
theorem test_illformed_beq_odd : (Instr.beq 1 2 0x0FFF).wellFormed = false := by decide
theorem test_illformed_bne_odd : (Instr.bne 1 2 0x0001).wellFormed = false := by decide
theorem test_wellformed_even : (Instr.jal 1 0x0FFFFE).wellFormed = true ∧ (Instr.beq 1 2 0x1000).wellFormed = true := by
  decide

/-! ## Decode: a word of every constructor (95_test_vectors.md section 2.1) -/

theorem test_decode_jal : decode 0xFFDFF06F = .instr (.jal 0 0x1FFFFC) := by decide
theorem test_decode_jal_most_negative : decode 0x800000EF = .instr (.jal 1 0x100000) := by decide
theorem test_decode_ecall : decode 0x00000073 = .instr (.ecall 0) := by decide
theorem test_decode_csrr_is_ecall : decode 0xB0002573 = .instr (.ecall 0x160004A) := by decide
theorem test_decode_beq : decode 0x7E000FE3 = .instr (.beq 0 0 0x0FFE) := by decide
theorem test_decode_bne : decode 0xFE009CE3 = .instr (.bne 1 0 0x1FF8) := by decide
theorem test_decode_lw : decode 0x0002A303 = .instr (.lw 6 5 0) := by decide
theorem test_decode_sw : decode 0xFE21AA23 = .instr (.sw 3 2 0xFF4) := by decide
theorem test_decode_addi : decode 0xFFF08093 = .instr (.addi 1 1 0xFFF) := by decide
theorem test_decode_slli : decode 0x40109193 = .instr (.slli 3 1 0x401) := by decide
theorem test_decode_ori : decode 0x1002E293 = .instr (.ori 5 5 0x100) := by decide
theorem test_decode_lui : decode 0x123450B7 = .instr (.lui 1 0x12345) := by decide
theorem test_decode_auipc : decode 0x00001297 = .instr (.auipc 5 1) := by decide
theorem test_decode_xor : decode 0x0020C1B3 = .instr (.xor 3 1 2) := by decide
theorem test_decode_srl : decode 0x0020D1B3 = .instr (.srl 3 1 2) := by decide
theorem test_decode_rem : decode 0x0220E1B3 = .instr (.rem 3 1 2) := by decide
theorem test_decode_gap : decode 0x00000000 = .instr .gap := by decide

/-- The UNIMPL words of section 2.1. -/
def unimplementedWords : List Word :=
  [0x003100B3, 0x40208033, 0x4020D1B3, 0x0020E1B3, 0x0220C1B3, 0x4220E1B3, 0x00008067, 0x0000000F, 0x0000100F, 0x0000202F] ++
  [0x00001003, 0x00004003, 0x00001023, 0x00002063, 0x00002013, 0x00004013, 0x00005013, 0x00000001, 0x00000004, 0xFFFFFFFF]

theorem test_decode_unimplemented : unimplementedWords.all (fun w => decide (dispatchOp w = .unimpl)) = true := by decide
theorem test_decode_unimplemented_fields :
    decode 0xFFF0A093 = .unimplemented 0b0010011 0b010 0b1111111 := by decide

/-- The immediates as `Bits32`, section 2.1. -/
theorem test_immediates : immOf .B 0x80000063 = 0xFFFFF000 ∧ immOf .J 0x7FFFF0EF = 0x000FFFFE ∧
    immOf .S 0xFE21AA23 = 0xFFFFFFF4 ∧ immOf .U 0x800000B7 = 0x00080000 ∧ immOf .I 0xFFF06093 = 0xFFFFFFFF ∧
    immOf .R 0x0220E1B3 = 0 := by decide

theorem test_decodeTableWord : decodeTableWord 32 0x0220E1B3 = some (.rem 3 1 2) ∧ decodeTableWord 32 0 = some .gap ∧
    decodeTableWord 32 0x00008067 = none := by decide

/-- Four bytes are one word, and the rest is given back. -/
theorem test_decodeBytes : decodeBytes .big [0x00, 0x02, 0xA3, 0x03, 0xAA] = some (.instr (.lw 6 5 0), [0xAA]) ∧
    decodeBytes .little [0x03, 0xA3, 0x02, 0x00] = some (.instr (.lw 6 5 0), []) ∧
    decodeBytes .big [0x00, 0x02, 0xA3] = none := by decide

theorem test_encode : encode (.sw 3 2 0xFF4) = 0xFE21AA23 ∧ encode (.bne 1 0 0x1FF8) = 0xFE009CE3 ∧
    encode (.jal 0 0x1FFFFC) = 0xFFDFF06F ∧ encode (.rem 3 1 2) = 0x0220E1B3 ∧ encode (.auipc 5 1) = 0x00001297 := by
  decide

/-! ## Assembler spelling (30_encoding.md R104, R105) -/

theorem test_asm : (Instr.sw 3 2 0xFF4).asm = "sw x2, -12(x3)" := by decide
theorem test_li_parts : hi20 0x12345FFF = 0x12346 ∧ lo12 0x12345FFF = 0xFFF := by decide

/-! ## Immediate instructions (section 2.3) -/

theorem test_addi_wraps : regAfter 0x10 0x00108093 [(1, 0x7FFFFFFF)] 1 = some (0x80000000, 0x14) := by decide
theorem test_addi_to_x0 : regAfter 0x10 0x00500013 [] 0 = some (0, 0x14) := by decide
theorem test_slli_ignores_funct7 : regAfter 0 0x40109193 [(1, 3)] 3 = some (6, 4) := by decide
theorem test_slli_by_31 : regAfter 0 0x01F09193 [(1, 1)] 3 = some (0x80000000, 4) := by decide
theorem test_ori_sign_extends : regAfter 0 0x8000E093 [(1, 1)] 1 = some (0xFFFFF801, 4) := by decide
theorem test_lui : regAfter 0 0x800000B7 [] 1 = some (0x80000000, 4) := by decide
theorem test_auipc_wraps : regAfter 0x10 0xFFFFF297 [] 5 = some (0xFFFFF010, 0x14) := by decide

/-! ## Register instructions (section 2.4, and the table of 45_integer_register.md R192) -/

theorem test_xor : regAfter 0 0x0020C1B3 [(1, 0x12345678), (2, 0xFFFFFFFF)] 3 = some (0xEDCBA987, 4) := by decide
theorem test_xor_same_register : regAfter 0 0x0010C0B3 [(1, 7)] 1 = some (0, 4) := by decide
theorem test_srl_zero_fills : regAfter 0 0x0020D1B3 [(1, 0xFFFFFFFF), (2, 1)] 3 = some (0x7FFFFFFF, 4) := by decide
theorem test_srl_by_33 : regAfter 0 0x0020D1B3 [(1, 0x80000000), (2, 0x21)] 3 = some (0x40000000, 4) := by decide
theorem test_rem_step : regAfter 0 0x0220E1B3 [(1, 0xFFFFFFD6), (2, 5)] 3 = some (0xFFFFFFFE, 4) := by decide

/-- Rows of the table of R192. -/
theorem test_rem_table : rem32 7 2 = 1 ∧ rem32 0xFFFFFFF9 2 = 0xFFFFFFFF ∧ rem32 7 0xFFFFFFFE = 1 ∧
    rem32 0xFFFFFFFB 0 = 0xFFFFFFFB ∧ rem32 0x80000000 0xFFFFFFFF = 0 ∧ rem32 0x80000000 0 = 0x80000000 ∧
    rem32 0x80000000 0x7FFFFFFF = 0xFFFFFFFF ∧ rem32 0x7FFFFFFF 0x80000000 = 0x7FFFFFFF := by decide

/-! ## Control transfer (section 2.5) -/

theorem test_jal_links : regAfter 0x10 0x008000EF [] 1 = some (0x14, 0x18) := by decide
theorem test_jal_wraps : regAfter 0 0xFFDFF06F [] 0 = some (0, 0xFFFFFFFC) := by decide
theorem test_beq_taken : regAfter 0x10 0x00628663 [(5, 0x100), (6, 0x100)] 5 = some (0x100, 0x1C) := by decide
theorem test_beq_not_taken : regAfter 0x10 0x00628663 [(5, 0x100), (6, 0x101)] 5 = some (0x100, 0x14) := by decide
theorem test_bne_taken : regAfter 0x0C 0xFE009CE3 [(1, 0x80000000)] 1 = some (0x80000000, 0x04) := by decide
theorem test_bne_not_taken : regAfter 0x0C 0xFE109CE3 [(1, 7)] 1 = some (7, 0x10) := by decide

/-! ## Environment call and gap (sections 2.7, 2.8) -/

theorem test_ecall : statusOf (at' strict200 0x18 0x00000073 []) = some (.halted, 0x1C) := by decide
theorem test_csrr_halts : regAfter 0x18 0xB0002573 [(10, 7)] 10 = some (7, 0x1C) := by decide
theorem test_gap : regAfter 0x0C 0 [(1, 5)] 1 = some (5, 0x10) := by decide

/-! ## Loads and stores (sections 2.6, 2.9) -/

theorem test_lw_unaligned :
    ((next? (step (withBytes (at' strict200 0 0x0012A303 [(5, 0x100)]) 0x100 [0x11, 0x22, 0x33, 0x44, 0xAA]))).map
      fun t => (readReg t 6, t.pc)) = some (0x223344AA, 4) := by decide
theorem test_lw_out_of_range : statusOf (at' strict200 0x30 0x0000A003 [(1, 0x1FD)]) =
    some (.error (.memoryOutOfRange 0x30 .load 0x1FD), 0x30) := by decide
theorem test_sw_big_endian : bytesOf (at' strict200 0 0xFE21AA23 [(3, 0x10C), (2, 0xDEADBEEF)]) [0x100, 0x101, 0x102, 0x103] =
    some [0xDE, 0xAD, 0xBE, 0xEF] := by decide
theorem test_sw_out_of_range : statusOf (at' strict200 0x40 0x0020A023 [(1, 0x1FE), (2, 0x11223344)]) =
    some (.error (.memoryOutOfRange 0x40 .store 0x1FE), 0x40) := by decide
theorem test_sw_sparse_wraps : bytesOf (at' sparse200 0x40 0x0020A023 [(1, 0xFFFFFFFE), (2, 0x11223344)])
    [0xFFFFFFFE, 0xFFFFFFFF, 0, 1] = some [0x11, 0x22, 0x33, 0x44] := by decide
theorem test_sw_strict_no_wrap : statusOf (at' strict200 0x40 0x0020A023 [(1, 0xFFFFFFFE)]) =
    some (.error (.memoryOutOfRange 0x40 .store 0xFFFFFFFE), 0x40) := by decide

/-! ## Fetch and errors (sections 2.8, 2.9) -/

theorem test_unimplemented : statusOf (at' strict200 0x20 0xFFF0A093 []) =
    some (.error (.unimplementedInstruction 0x20 0b0010011 0b010 0b1111111), 0x20) := by decide
theorem test_unimplemented_before_range : statusOf (at' strict200 0x20 0x0000B183 [(1, 0xFFFFFF00)]) =
    some (.error (.unimplementedInstruction 0x20 0b0000011 0b011 0b0000000), 0x20) := by decide
theorem test_fetch_partial : statusOf { State.reset with config := ⟨.strict, 0x1FE, .big⟩, pc := 0x1FC } =
    some (.error (.memoryOutOfRange 0x1FC .fetch 0x1FC), 0x1FC) := by decide
theorem test_fetch_misaligned_halts :
    statusOf { State.resetWith strict200 [0x00, 0x20, 0x00, 0x6F, 0x00, 0x73, 0, 0] with pc := 2 } =
    some (.halted, 6) := by decide
theorem test_fetch_little_endian :
    statusOf { State.resetWith ⟨.strict, 0x200, .little⟩ [0x6F, 0x00, 0x20, 0x00, 0, 0, 0x73, 0] with pc := 2 } =
    some (.error (.unimplementedInstruction 2 0b0100000 0b000 0b0000000), 2) := by decide
theorem test_stopped_runs_no_cycle : statusOf (halt (at' strict200 0x18 0x00000013 [])) = none := by decide

/-! ## Reset and the first instruction (section 2.10) -/

theorem test_reset_first_word : statusOf State.reset = some (.running, 4) := by decide
theorem test_reset_runs_placed_word :
    ((next? (step (State.reset.withFetchWord 32 0x00100513))).map fun t => (readReg t 10, t.pc)) = some (1, 4) := by decide
theorem test_reset_from_words : (State.resetFromWords ⟨.strict, 0x10, .little⟩ [(0, 0x00100513), (4, 0x73)]).mem =
    [(0, 0x13), (1, 0x05), (2, 0x10), (4, 0x73)] := by decide
theorem test_invariant_needs_even_pc : State.inv { State.reset with pc := 1 } = false := by decide

/-! ## Witnesses: the hypotheses of each statement can be met -/

theorem witness_ResetWithImageSatisfiesInvariant :
    Config.wf ⟨.strict, 8, .big⟩ = true ∧ imageFits ⟨.strict, 8, .big⟩ [0, 0x10, 5, 0x13, 0, 0, 0, 0x73] = true := by decide

theorem witness_StepKeepsInvariant : (at' strict200 0x1FC 0x0020006F []).inv = true ∧
    ∃ t, step (at' strict200 0x1FC 0x0020006F []) = .next t ∧ (t.pc == 0x1FE) = true :=
  ⟨by decide, exists_next (by decide)⟩

theorem witness_PcStaysEven : (at' strict200 0x10 0x80000063 []).pc.toNat % 2 = 0 ∧
    ∃ t, step (at' strict200 0x10 0x80000063 []) = .next t ∧ (t.pc == 0xFFFFF010) = true :=
  ⟨by decide, exists_next (by decide)⟩

theorem witness_StepKeepsParameters :
    ∃ t, step (at' sparse200 0x10 0x00108093 []) = .next t ∧ decide (t.config = sparse200) = true :=
  exists_next (by decide)

theorem witness_DecodeEncodeRoundTrip : (Instr.bne 31 0 0x1FFE).wellFormed = true := by decide

theorem witness_EncodeDecodeRoundTrip : decode 0xFE009CE3 = .instr (.bne 1 0 0x1FF8) := by decide

theorem witness_DispatchMatchesOpcodeTable :
    (⟨.srl, some .R, 0x00005033, 0xFE00707F⟩ : Row) ∈ opcodeTable ∧
    Row.matches ⟨.srl, some .R, 0x00005033, 0xFE00707F⟩ 0x0020D1B3 = true ∧
    dispatch 0x4020D1B3 = (.unimpl, none) := by decide

theorem witness_SignExtensionSubtractsPower : 0 < 1 ∧ 1 ≤ 32 ∧ (0x1 : BitVec 1).getLsbD (1 - 1) = true ∧
    0 < 32 ∧ 32 ≤ 32 ∧ (0x7FFFFFFF : BitVec 32).getLsbD (32 - 1) = false := by decide

theorem witness_SystemWordsAllHalt : (at' strict200 0x1FC 0x30200073 []).status = .running ∧
    inRange strict200 0x1FC = true ∧ opcodeOf (fetchedWord (at' strict200 0x1FC 0x30200073 [])) = 0b1110011 := by decide

theorem witness_HaltOnlyBySystemWord :
    ∃ t, step (at' strict200 0x18 0x00100073 []) = .next t ∧ decide (t.status = .halted) = true :=
  exists_next (by decide)

theorem witness_GapSkips : (at' strict200 0x0C 0 []).status = .running ∧ inRange strict200 0x0C = true ∧
    fetchedWord (at' strict200 0x0C 0 []) = 0 := by decide

/-- A load or store at the last in-range address, and one byte past it (95_test_vectors.md section 2.9). -/
theorem witness_LwLoadsBigEndianWord :
    inRange strict200 (effectiveAddress (at' strict200 0 0 [(1, 0x1FC)]) 1 0) = true := by decide
theorem witness_LwOutOfRangeRaises :
    inRange strict200 (effectiveAddress (at' strict200 0 0 [(1, 0x1FD)]) 1 0) = false := by decide
theorem witness_SwStoresBigEndianWord : Memory.wf (at' strict200 0 0 [(1, 0x1FD)]).mem = true ∧
    inRange strict200 (effectiveAddress (at' strict200 0 0 [(1, 0x1FD)]) 1 0xFFF) = true := by decide
theorem witness_SwOutOfRangeRaises :
    inRange strict200 (effectiveAddress (at' strict200 0 0 [(1, 0x1FC)]) 1 1) = false := by decide

theorem witness_AccessTouchesPresentBytes : strict200.wf = true ∧ inRange strict200 0x1FC = true ∧ 3 < 4 ∧
    strict200.memoryMode = .strict ∧ byteAddress strict200 0x1FC 3 = 0x1FF ∧
    sparse200.wf = true ∧ inRange sparse200 0xFFFFFFFE = true ∧ byteAddress sparse200 0xFFFFFFFE 3 = 1 := by decide

theorem witness_SparseModeNeverOutOfRange : (at' sparse200 0 0x0000A183 [(1, 0x1FD)]).config.memoryMode = .sparse ∧
    ∃ t, step (at' sparse200 0 0x0000A183 [(1, 0x1FD)]) = .next t ∧ (t.pc == 4) = true :=
  ⟨by decide, exists_next (by decide)⟩

theorem witness_LoadAfterStoreReturnsWord : Memory.wf (at' strict200 0 0 [(1, 0x1FC), (2, 9)]).mem = true ∧
    inRange strict200 (effectiveAddress (at' strict200 0 0 [(1, 0x1FC), (2, 9)]) 1 0) = true ∧
    ∃ t, exec (.sw 1 2 0) (at' strict200 0 0 [(1, 0x1FC), (2, 9)]) = .next t ∧ (readByte t 0x1FF == 9) = true :=
  ⟨by decide, by decide, exists_next (by decide)⟩

theorem witness_OverlappingLoadSeesStoredBytes : strict200.wf = true ∧
    Memory.wf (at' strict200 0 0 [(1, 0x1FB)]).mem = true ∧
    inRange strict200 (effectiveAddress (at' strict200 0 0 [(1, 0x1FB)]) 1 0) = true ∧
    ∃ t, exec (.sw 1 2 0) (at' strict200 0 0 [(1, 0x1FB)]) = .next t ∧
      (effectiveAddress t 1 1 == effectiveAddress (at' strict200 0 0 [(1, 0x1FB)]) 1 0 + 1 &&
        inRange strict200 (effectiveAddress t 1 1)) = true :=
  ⟨by decide, by decide, by decide, exists_next (by decide)⟩

theorem witness_StoreToNextInstructionIsFetched : (at' strict200 8 0x00102623 [(1, 0x73)]).status = .running ∧
    Memory.wf (at' strict200 8 0x00102623 [(1, 0x73)]).mem = true ∧
    effectiveAddress (at' strict200 8 0x00102623 [(1, 0x73)]) 0 0x00C = 8 + 4 ∧ inRange strict200 (8 + 4) = true ∧
    decode (wordOfBytes .big 0x00 0x00 0x00 0x73) = .instr (.ecall 0) ∧
    ∃ t, exec (.sw 0 1 0x00C) (at' strict200 8 0x00102623 [(1, 0x73)]) = .next t ∧ (t.pc == 0x0C) = true :=
  ⟨by decide, by decide, by decide, by decide, by decide, exists_next (by decide)⟩

theorem witness_CanonicalMemoriesEqualByReads : Memory.wf [(3, 1), (5, 2)] = true ∧
    Memory.wf (Memory.write (Memory.write [] 5 2) 3 1) = true ∧
    ∀ a, Memory.read [(3, 1), (5, 2)] a = Memory.read (Memory.write (Memory.write [] 5 2) 3 1) a :=
  ⟨by decide, by decide, fun _ => rfl⟩

/-- The two clauses on the shift amount: 0 (from 32) and 31. -/
theorem witness_SrlShiftsRightZeroFilling :
    (readReg (at' strict200 0 0 [(2, 0x20)]) 2).toNat % 32 = 0 ∧
    (readReg (at' strict200 0 0 [(2, 0xFFFFFFFF)]) 2).toNat % 32 ≠ 0 := by decide

/-- The three clauses: divisor 0, INT32_MIN by -1 (which the third clause gives 0 too), any other divisor. -/
theorem witness_RemTruncatedRemainder :
    readReg (at' strict200 0 0 [(1, 0x80000000)]) 2 = 0 ∧
    (readReg (at' strict200 0 0 [(1, 0x80000000), (2, 0xFFFFFFFF)]) 1 = 0x80000000 ∧
      readReg (at' strict200 0 0 [(1, 0x80000000), (2, 0xFFFFFFFF)]) 2 = 0xFFFFFFFF) ∧
    Int.tmod (0x80000000 : Word).toInt (0xFFFFFFFF : Word).toInt = 0 ∧
    readReg (at' strict200 0 0 [(1, 0x80000000), (2, 0xFFFFFFFF)]) 2 ≠ 0 := by decide

theorem witness_RemainderBounds : (0xFFFFFFFF : Word) ≠ 0 ∧ (0x80000000 : Word) ≠ 0 := by decide

theorem witness_StepRunsDecodedInstruction : (at' strict200 0x1FC 0x00108093 []).status = .running ∧
    inRange strict200 0x1FC = true ∧
    decode (fetchedWord (at' strict200 0x1FC 0x00108093 [])) = .instr (.addi 1 1 1) := by decide

theorem witness_FetchOutOfRangeRaises : (at' strict200 0x1FE 0 []).status = .running ∧
    inRange strict200 (at' strict200 0x1FE 0 []).pc = false := by decide

theorem witness_UnimplementedWordRaises : (at' strict200 0x20 0x00008067 []).status = .running ∧
    inRange strict200 0x20 = true ∧
    ∀ r ∈ opcodeTable, r.matches (fetchedWord (at' strict200 0x20 0x00008067 [])) = false := by decide

theorem witness_ErrorsCommitNothing : ∃ t, step (at' strict200 0x30 0x0000A183 [(1, 0x1FD)]) = .next t ∧
    decide (t.status = .error (.memoryOutOfRange 0x30 .load 0x1FD)) = true :=
  exists_next (by decide)

theorem witness_StatusAfterStep :
    ∃ t, step (at' strict200 0x40 0x0020A023 [(1, 0x1FE)]) = .next t ∧ t.errored = true :=
  exists_next (by decide)

theorem witness_PcAfterStep :
    ∃ t, step (at' strict200 0x10 0x00628663 [(5, 1), (6, 1)]) = .next t ∧ decide (t.errored = false) = true :=
  exists_next (by decide)

theorem witness_EveryRunningStepCompletes : State.reset.status = .running := by decide

theorem witness_StoppedMachineRunsNoCycle : (halt State.reset).status ≠ .running := by decide

theorem witness_StepWritesOnlyDestination : ∃ t, step (at' strict200 0 0x00500093 []) = .next t ∧
    decide (readReg t 1 ≠ readReg (at' strict200 0 0x00500093 []) 1) = true :=
  exists_next (by decide)

theorem witness_StepStoresOnlyBySw : ∃ t, step (at' strict200 0 0xFE21AA23 [(3, 0x10C), (2, 0xDEADBEEF)]) = .next t ∧
    decide (readByte t 0x103 ≠ readByte (at' strict200 0 0xFE21AA23 [(3, 0x10C), (2, 0xDEADBEEF)]) 0x103) = true :=
  exists_next (by decide)

/-- The two states differ in register 7 alone. -/
theorem witness_ExecReadsOnlyNamedRegisters :
    (at' strict200 0 0 [(1, 5)]).status = .running ∧ (at' strict200 0 0 [(1, 5), (7, 9)]).status = .running ∧
    (at' strict200 0 0 [(1, 5), (7, 9)]).pc = (at' strict200 0 0 [(1, 5)]).pc ∧
    (at' strict200 0 0 [(1, 5), (7, 9)]).mem = (at' strict200 0 0 [(1, 5)]).mem ∧
    (at' strict200 0 0 [(1, 5), (7, 9)]).config = (at' strict200 0 0 [(1, 5)]).config ∧
    (∀ r ∈ (Instr.addi 2 1 1).reads, readReg (at' strict200 0 0 [(1, 5), (7, 9)]) r = readReg (at' strict200 0 0 [(1, 5)]) r) ∧
    ∃ t, exec (.addi 2 1 1) (at' strict200 0 0 [(1, 5)]) = .next t ∧ (!t.errored && readReg t 2 == 6) = true :=
  ⟨by decide, by decide, by decide, by decide, by decide, by decide, exists_next (by decide)⟩

theorem witness_DatapathComputesInstructionRules : decode 0x0000A003 = .instr (.lw 0 1 0) ∧
    (next? (datapathWord 0x00108093 (at' strict200 0 0 [(1, 4)]))).map (readReg · 1) = some 5 := by decide

theorem witness_PlacedWordIsFetched : Memory.wf State.reset.mem = true ∧
    inRange State.reset.config State.reset.pc = true ∧ touches State.reset.config State.reset.pc 4 = false := by decide

theorem witness_DriverPassAtEnd :
    (∃ t, exec (.ecall 0) (at' strict200 0 0 [(10, 1)]) = .next t ∧ t.driverPass = true) ∧
    ∃ t, step (at' strict200 0 0x00008067 [(10, 1)]) = .next t ∧ (t.errored && !t.driverPass) = true :=
  ⟨exists_next (by decide), exists_next (by decide)⟩

end Sys2Proof.Tests
end

section
/-! PROOFS. Sign and zero extension in terms of a field's value (00_scope.md R10). -/

namespace Sys2Proof

/-- A field's signed value, by its top bit `f[N-1]` as R10 writes it. -/
theorem field_toInt_eq_ite_topBit {n : Nat} (f : BitVec n) :
    f.toInt = if f.getLsbD (n - 1) then (f.toNat : Int) - 2 ^ n else f.toNat := by
  rw [BitVec.toInt_eq_msb_cond, BitVec.msb_eq_getLsbD_last, Nat.cast_pow, Nat.cast_ofNat]

/-- Sign extension keeps the signed value, up to the word's modulus. -/
theorem sext_eq_ofInt_toInt {n : Nat} (f : BitVec n) : sext f = BitVec.ofInt 32 f.toInt := rfl

/-- Zero extension keeps the unsigned value, up to the word's modulus. -/
theorem zext_eq_ofNat_toNat {n : Nat} (f : BitVec n) : zext f = BitVec.ofNat 32 f.toNat :=
  (BitVec.ofNat_toNat 32 f).symm

/-- Settles O12: the extension of the signed value, read by the top bit. The bounds on the field's width are not needed. -/
theorem signExtensionSubtractsPower : Obligations.SignExtensionSubtractsPower := by
  intro n f _ _
  constructor
  · rw [sext_eq_ofInt_toInt, field_toInt_eq_ite_topBit]
  · exact zext_eq_ofNat_toNat f

end Sys2Proof
end

section
/-! PROOFS. Immediates: the source of each field's bits (30_encoding.md R84 to R88), and the value of the
extended field. -/

namespace Sys2Proof

/-! ## Bit sources -/

theorem getLsbD_fieldI (w : Word) {k : Nat} (hk : k < 12) : (fieldI w).getLsbD k = w.getLsbD (20 + k) := by
  simp [fieldI, hk]

/-- R85: the low five bits come from `w[11:7]`, the others from `w[31:25]`. -/
theorem getLsbD_fieldS (w : Word) {k : Nat} (hk : k < 12) :
    (fieldS w).getLsbD k = if k < 5 then w.getLsbD (7 + k) else w.getLsbD (20 + k) := by
  simp only [fieldS, BitVec.getLsbD_append, BitVec.getLsbD_extractLsb']
  split_ifs with hlow
  · simp [hlow]
  · have hlen : k - 5 < 7 := by omega
    have hsource : 25 + (k - 5) = 20 + k := by omega
    simp [hlen, hsource]

/-- R86, bit by bit. -/
theorem getLsbD_fieldB (w : Word) {k : Nat} (hk : k < 13) :
    (fieldB w).getLsbD k =
      if k = 0 then false else if k < 5 then w.getLsbD (7 + k) else if k < 11 then w.getLsbD (20 + k)
      else if k = 11 then w.getLsbD 7 else w.getLsbD 31 := by
  simp only [fieldB, BitVec.getLsbD_append, BitVec.getLsbD_extractLsb']
  interval_cases k <;> simp

theorem getLsbD_fieldU (w : Word) {k : Nat} (hk : k < 20) : (fieldU w).getLsbD k = w.getLsbD (12 + k) := by
  simp [fieldU, hk]

/-- R88, bit by bit. -/
theorem getLsbD_fieldJ (w : Word) {k : Nat} (hk : k < 21) :
    (fieldJ w).getLsbD k =
      if k = 0 then false else if k < 11 then w.getLsbD (20 + k) else if k = 11 then w.getLsbD 20
      else if k < 20 then w.getLsbD k else w.getLsbD 31 := by
  simp only [fieldJ, BitVec.getLsbD_append, BitVec.getLsbD_extractLsb']
  interval_cases k <;> simp

/-! ## Values -/

theorem evenOffset_iff {n : Nat} (f : BitVec n) : evenOffset f = true ↔ f.getLsbD 0 = false := by
  rw [evenOffset, Bool.not_eq_true']

theorem evenOffset_fieldB (w : Word) : evenOffset (fieldB w) = true :=
  (evenOffset_iff _).2 (getLsbD_fieldB w (by decide))

theorem evenOffset_fieldJ (w : Word) : evenOffset (fieldJ w) = true :=
  (evenOffset_iff _).2 (getLsbD_fieldJ w (by decide))

theorem toNat_even_of_evenOffset {n : Nat} {f : BitVec n} (h : evenOffset f = true) : f.toNat % 2 = 0 := by
  rw [evenOffset_iff, ← BitVec.testBit_toNat, Nat.testBit_zero] at h
  simpa using h

/-- The modulus that R10 takes from a negative field is even, so the signed value keeps the parity. -/
theorem toInt_even_of_evenOffset {n : Nat} {f : BitVec n} (hn : n ≠ 0) (h : evenOffset f = true) :
    f.toInt % 2 = 0 := by
  have hmodulus : (2 : Int) ∣ 2 ^ n := dvd_pow_self 2 hn
  have hvalue : f.toNat % 2 = 0 := toNat_even_of_evenOffset h
  rw [field_toInt_eq_ite_topBit]
  split <;> omega

theorem toInt_sext {n : Nat} (f : BitVec n) (hn : n ≤ 32) : (sext f).toInt = f.toInt :=
  BitVec.toInt_signExtend_of_le hn

theorem toNat_zext {n : Nat} (f : BitVec n) (hn : n ≤ 32) : (zext f).toNat = f.toNat :=
  BitVec.toNat_setWidth_of_le hn

theorem sext_bounds {n : Nat} (f : BitVec n) (hn : n ≤ 32) :
    -2 ^ (n - 1) ≤ (sext f).toInt ∧ (sext f).toInt < 2 ^ (n - 1) := by
  rw [toInt_sext f hn]
  exact ⟨f.le_toInt, f.toInt_lt⟩

theorem sext_even {n : Nat} {f : BitVec n} (h0 : n ≠ 0) (hn : n ≤ 32) (he : evenOffset f = true) :
    (sext f).toInt % 2 = 0 := by
  rw [toInt_sext f hn]
  exact toInt_even_of_evenOffset h0 he

/-- I and S immediates (R84, R85). -/
theorem sext_range_of_12 (f : BitVec 12) : -2048 ≤ (sext f).toInt ∧ (sext f).toInt ≤ 2047 := by
  obtain ⟨hlo, hhi⟩ := sext_bounds f (by decide)
  exact ⟨hlo, Int.le_sub_one_of_lt hhi⟩

/-- B immediates (R86): the largest even value below 2^12. -/
theorem sext_fieldB_range (w : Word) :
    -4096 ≤ (sext (fieldB w)).toInt ∧ (sext (fieldB w)).toInt ≤ 4094 ∧ (sext (fieldB w)).toInt % 2 = 0 := by
  obtain ⟨hlo, hhi⟩ := sext_bounds (fieldB w) (by decide)
  have heven := sext_even (by decide) (by decide) (evenOffset_fieldB w)
  exact ⟨hlo, by omega, heven⟩

/-- J immediates (R88): the largest even value below 2^20. -/
theorem sext_fieldJ_range (w : Word) :
    -1048576 ≤ (sext (fieldJ w)).toInt ∧ (sext (fieldJ w)).toInt ≤ 1048574 ∧ (sext (fieldJ w)).toInt % 2 = 0 := by
  obtain ⟨hlo, hhi⟩ := sext_bounds (fieldJ w) (by decide)
  have heven := sext_even (by decide) (by decide) (evenOffset_fieldJ w)
  exact ⟨hlo, by omega, heven⟩

/-- U immediates (R87), unshifted. -/
theorem zext_fieldU_range (w : Word) :
    (zext (fieldU w)).toNat = (fieldU w).toNat ∧ (zext (fieldU w)).toNat ≤ 0xFFFFF := by
  have hvalue := toNat_zext (fieldU w) (by decide)
  exact ⟨hvalue, hvalue ▸ Nat.le_sub_one_of_lt (fieldU w).isLt⟩

/-- Settles O13: the bit sources field by field, then the extension and range of each format's immediate. -/
theorem immediateBitSources : Obligations.ImmediateBitSources := fun w =>
  ⟨fun _ => getLsbD_fieldI w, fun _ => getLsbD_fieldS w, fun _ => getLsbD_fieldB w, fun _ => getLsbD_fieldU w,
    fun _ => getLsbD_fieldJ w, ⟨rfl, sext_range_of_12 (fieldI w)⟩, ⟨rfl, sext_range_of_12 (fieldS w)⟩,
    ⟨rfl, sext_fieldB_range w⟩, zext_fieldU_range w, ⟨rfl, sext_fieldJ_range w⟩, rfl⟩

end Sys2Proof
end

section
/-! PROOFS. The opcode table's match test in terms of the fixed fields, and the cycle of a word that matches no row
(30_encoding.md R96, R100; 60_exceptions.md R202). -/

namespace Sys2Proof

/-! ## The three masks of R96 select whole fields -/

theorem and_opcodeMask (w : Word) : w &&& 0x0000007F = zext (opcodeOf w) := by
  apply BitVec.eq_of_getLsbD_eq
  intro k hk
  simp only [zext, opcodeOf, BitVec.getLsbD_and, BitVec.getLsbD_setWidth, BitVec.getLsbD_extractLsb']
  interval_cases k <;> simp

theorem and_funct3Mask (w : Word) : w &&& 0x0000707F = zext (funct3Of w ++ 0#5 ++ opcodeOf w) := by
  apply BitVec.eq_of_getLsbD_eq
  intro k hk
  simp only [zext, opcodeOf, funct3Of, BitVec.getLsbD_and, BitVec.getLsbD_setWidth, BitVec.getLsbD_append,
    BitVec.getLsbD_extractLsb']
  interval_cases k <;> simp

theorem and_funct7Mask (w : Word) :
    w &&& 0xFE00707F = funct7Of w ++ 0#10 ++ funct3Of w ++ 0#5 ++ opcodeOf w := by
  apply BitVec.eq_of_getLsbD_eq
  intro k hk
  simp only [opcodeOf, funct3Of, funct7Of, BitVec.getLsbD_and, BitVec.getLsbD_append, BitVec.getLsbD_extractLsb']
  interval_cases k <;> simp

/-- Words that agree under a mask agree in every field the mask covers. -/
theorem extractLsb'_eq_of_and_eq {w p m : Word} {start len : Nat} (h : w &&& m = p &&& m)
    (hm : ∀ k < len, m.getLsbD (start + k) = true) : w.extractLsb' start len = p.extractLsb' start len := by
  apply BitVec.eq_of_getLsbD_eq
  intro k hk
  have hbit := congrArg (·.getLsbD (start + k)) h
  simpa [hm k hk, hk] using hbit

theorem and_opcodeMask_eq_iff (w p : Word) : w &&& 0x0000007F = p &&& 0x0000007F ↔ opcodeOf w = opcodeOf p := by
  constructor
  · exact fun h => extractLsb'_eq_of_and_eq h (by decide)
  · exact fun h => by rw [and_opcodeMask, and_opcodeMask, h]

theorem and_funct3Mask_eq_iff (w p : Word) :
    w &&& 0x0000707F = p &&& 0x0000707F ↔ opcodeOf w = opcodeOf p ∧ funct3Of w = funct3Of p := by
  constructor
  · exact fun h => ⟨extractLsb'_eq_of_and_eq h (by decide), extractLsb'_eq_of_and_eq h (by decide)⟩
  · exact fun ⟨ho, h3⟩ => by rw [and_funct3Mask, and_funct3Mask, ho, h3]

theorem and_funct7Mask_eq_iff (w p : Word) :
    w &&& 0xFE00707F = p &&& 0xFE00707F ↔
      opcodeOf w = opcodeOf p ∧ funct3Of w = funct3Of p ∧ funct7Of w = funct7Of p := by
  constructor
  · exact fun h => ⟨extractLsb'_eq_of_and_eq h (by decide), extractLsb'_eq_of_and_eq h (by decide),
      extractLsb'_eq_of_and_eq h (by decide)⟩
  · exact fun ⟨ho, h3, h7⟩ => by rw [and_funct7Mask, and_funct7Mask, ho, h3, h7]

/-! ## The match test, mask by mask -/

theorem matches_iff_and_eq (r : Row) (hp : r.pattern &&& r.mask = r.pattern) (w : Word) :
    r.matches w = true ↔ w &&& r.mask = r.pattern &&& r.mask := by
  rw [Row.matches, beq_iff_eq, hp]

theorem matches_opcodeMask_iff {op : Op} {f : Option Format} {p : Word} (hp : p &&& 0x0000007F = p) (w : Word) :
    Row.matches ⟨op, f, p, 0x0000007F⟩ w = true ↔ opcodeOf w = opcodeOf p :=
  (matches_iff_and_eq _ hp w).trans (and_opcodeMask_eq_iff w p)

theorem matches_funct3Mask_iff {op : Op} {f : Option Format} {p : Word} (hp : p &&& 0x0000707F = p) (w : Word) :
    Row.matches ⟨op, f, p, 0x0000707F⟩ w = true ↔ opcodeOf w = opcodeOf p ∧ funct3Of w = funct3Of p :=
  (matches_iff_and_eq _ hp w).trans (and_funct3Mask_eq_iff w p)

theorem matches_funct7Mask_iff {op : Op} {f : Option Format} {p : Word} (hp : p &&& 0xFE00707F = p) (w : Word) :
    Row.matches ⟨op, f, p, 0xFE00707F⟩ w = true ↔
      opcodeOf w = opcodeOf p ∧ funct3Of w = funct3Of p ∧ funct7Of w = funct7Of p :=
  (matches_iff_and_eq _ hp w).trans (and_funct7Mask_eq_iff w p)

theorem matches_fullMask_iff {op : Op} {f : Option Format} {p : Word} (w : Word) :
    Row.matches ⟨op, f, p, 0xFFFFFFFF⟩ w = true ↔ w = p := by
  have hmask : w &&& 0xFFFFFFFF = w := BitVec.and_allOnes
  rw [Row.matches, hmask, beq_iff_eq]

/-! ## A word that matches no row -/

theorem branchOp_eq_unimpl {f : BitVec 3} (hbeq : f ≠ 0b000) (hbne : f ≠ 0b001) : branchOp f = .unimpl := by
  rw [branchOp, if_neg hbeq, if_neg hbne]

theorem opImmOp_eq_unimpl {f : BitVec 3} (haddi : f ≠ 0b000) (hslli : f ≠ 0b001) (hori : f ≠ 0b110) :
    opImmOp f = .unimpl := by
  rw [opImmOp, if_neg haddi, if_neg hslli, if_neg hori]

theorem opOp_eq_unimpl {f : BitVec 3} {g : BitVec 7} (hxor : ¬(f = 0b100 ∧ g = 0b0000000))
    (hsrl : ¬(f = 0b101 ∧ g = 0b0000000)) (hrem : ¬(f = 0b110 ∧ g = 0b0000001)) : opOp f g = .unimpl := by
  rw [opOp, if_neg hxor, if_neg hsrl, if_neg hrem]

theorem groupOp_eq_unimpl {c : BitVec 7} {f : BitVec 3} {g : BitVec 7} (hjal : c ≠ 0b1101111)
    (hecall : c ≠ 0b1110011) (hbranch : c = 0b1100011 → branchOp f = .unimpl) (hlw : c = 0b0000011 → f ≠ 0b010)
    (hsw : c = 0b0100011 → f ≠ 0b010) (hopImm : c = 0b0010011 → opImmOp f = .unimpl) (hlui : c ≠ 0b0110111)
    (hauipc : c ≠ 0b0010111) (hop : c = 0b0110011 → opOp f g = .unimpl) : groupOp c f g = .unimpl := by
  rw [groupOp, if_neg hjal, if_neg hecall, if_neg hlui, if_neg hauipc]
  split_ifs with hc hc hf hc hf hc hc
  · exact hbranch hc
  · exact absurd hf (hlw hc)
  · rfl
  · exact absurd hf (hsw hc)
  · rfl
  · exact hopImm hc
  · exact hop hc
  · rfl

/-- R100: each row that does not match closes one branch of the dispatch tree. -/
theorem dispatchOp_eq_unimpl_of_no_row {w : Word} (h : ∀ r ∈ opcodeTable, r.matches w = false) :
    dispatchOp w = .unimpl := by
  simp (disch := decide) only [opcodeTable, List.cons_append, List.nil_append, List.forall_mem_cons,
    ← Bool.not_eq_true, matches_opcodeMask_iff, matches_funct3Mask_iff, matches_funct7Mask_iff,
    matches_fullMask_iff] at h
  obtain ⟨hjal, hecall, hbeq, hbne, hlw, hsw, haddi, hslli, hori, hlui, hauipc, hxor, hsrl, hrem, hgap, -⟩ := h
  rw [dispatchOp, if_neg hgap]
  apply groupOp_eq_unimpl
  case hjal => exact hjal
  case hecall => exact hecall
  case hbranch => exact fun hc => branchOp_eq_unimpl (fun hf => hbeq ⟨hc, hf⟩) fun hf => hbne ⟨hc, hf⟩
  case hlw => exact fun hc hf => hlw ⟨hc, hf⟩
  case hsw => exact fun hc hf => hsw ⟨hc, hf⟩
  case hopImm =>
    exact fun hc => opImmOp_eq_unimpl (fun hf => haddi ⟨hc, hf⟩) (fun hf => hslli ⟨hc, hf⟩) fun hf => hori ⟨hc, hf⟩
  case hlui => exact hlui
  case hauipc => exact hauipc
  case hop =>
    exact fun hc => opOp_eq_unimpl (fun hf => hxor ⟨hc, hf⟩) (fun hf => hsrl ⟨hc, hf⟩) fun hf => hrem ⟨hc, hf⟩

theorem decode_of_unimpl {w : Word} (h : dispatchOp w = .unimpl) :
    decode w = .unimplemented (opcodeOf w) (funct3Of w) (funct7Of w) := by
  rw [decode, h]

end Sys2Proof

namespace Sys2Proof.Machine

/-- The cycle of an UNIMPL word (40_cycle_and_datapath.md R123). -/
theorem step_of_unimplemented {s : State} {opcode : BitVec 7} {funct3 : BitVec 3} {funct7 : BitVec 7}
    (hs : s.status = .running) (hr : inRange s.config s.pc = true)
    (hd : decode (fetchedWord s) = .unimplemented opcode funct3 funct7) :
    step s = raise (.unimplementedInstruction s.pc opcode funct3 funct7) s := by
  rw [fetchedWord] at hd
  simp only [step, cycle, hs, runningCycle, fetch_inRange hr, hd]

/-- No step follows in a stopped state (10_state.md R29). -/
theorem step_ne_next_of_stopped {s : State} (hs : s.status ≠ .running) (t : State) : step s ≠ .next t :=
  fun h => hs (step_cases h).1

/-- Settles O44: such a word dispatches to UNIMPL, its cycle raises, and the state it leaves is stopped. -/
theorem unimplementedWordRaises : Obligations.UnimplementedWordRaises := by
  intro s hs hr hunmatched
  have hd := decode_of_unimpl (dispatchOp_eq_unimpl_of_no_row hunmatched)
  exact ⟨_, step_of_unimplemented hs hr hd, rfl, step_ne_next_of_stopped (by simp)⟩

end Sys2Proof.Machine
end

section
/-! PROOFS. Every cycle of a Running state finishes in its own step (40_cycle_and_datapath.md R126, R137), and the cycle
of the gap word (R122). -/

namespace Sys2Proof

/-- R122: the gap word is dispatched to GAP, which has no fields to read. -/
theorem decode_zero : decode 0 = .instr .gap := by
  rw [decode, dispatchOp_zero]

end Sys2Proof

namespace Sys2Proof.Machine

/-! ## The outcome of the cycle's ends and of each instruction -/

theorem finish_exists_next (o : Option Word) (s : State) : ∃ t, finish o s = .next t := ⟨_, rfl⟩

theorem raise_exists_next (e : ErrorRecord) (s : State) : ∃ t, raise e s = .next t := ⟨_, rfl⟩

/-- R165: a read that raises is a next state too. -/
theorem execLw_exists_next (rd rs1 : RegIdx) (imm : BitVec 12) (s : State) : ∃ t, execLw rd rs1 imm s = .next t := by
  rw [execLw]
  cases memRead s (effectiveAddress s rs1 imm) with
  | error e => exact raise_exists_next e s
  | ok v => exact finish_exists_next none _

/-- R166: a write that raises is a next state too. -/
theorem execSw_exists_next (rs1 rs2 : RegIdx) (imm : BitVec 12) (s : State) : ∃ t, execSw rs1 rs2 imm s = .next t := by
  rw [execSw]
  cases memWrite s (effectiveAddress s rs1 imm) (readReg s rs2) with
  | error e => exact raise_exists_next e s
  | ok s' => exact finish_exists_next none s'

/-- No instruction faults or is refused: only LW and SW can raise, every other one ends in `finish`. -/
theorem exec_exists_next (i : Instr) (s : State) : ∃ t, exec i s = .next t := by
  cases i with
  | lw rd rs1 imm => exact execLw_exists_next rd rs1 imm s
  | sw rs1 rs2 imm => exact execSw_exists_next rs1 rs2 imm s
  | _ => exact finish_exists_next _ _

theorem exec_gap (s : State) : exec .gap s = .next (advance none s) := rfl

/-! ## The cycle, in the order of its checks (60_exceptions.md R206) -/

/-- The cycle whose fetch is out of range (40_cycle_and_datapath.md R121). -/
theorem step_of_fetch_outOfRange {s : State} (hs : s.status = .running) (hr : inRange s.config s.pc = false) :
    step s = raise (.memoryOutOfRange s.pc .fetch s.pc) s := by
  simp only [step, cycle, hs, runningCycle, fetch_outOfRange hr]

/-- The cycle of a word that decodes to an instruction (R124, R126). -/
theorem step_of_instr {s : State} {i : Instr} (hs : s.status = .running) (hr : inRange s.config s.pc = true)
    (hd : decode (fetchedWord s) = .instr i) : step s = exec i s := by
  rw [fetchedWord] at hd
  simp only [step, cycle, hs, runningCycle, fetch_inRange hr, hd]

/-- Settles O48: the fetch raises, the word is UNIMPL and raises, or it is an instruction, and each gives a next state. -/
theorem everyRunningStepCompletes : Obligations.EveryRunningStepCompletes := by
  intro s hs
  cases hr : inRange s.config s.pc with
  | false =>
    rw [step_of_fetch_outOfRange hs hr]
    exact raise_exists_next _ s
  | true =>
    cases hd : decode (fetchedWord s) with
    | unimplemented opcode funct3 funct7 =>
      rw [step_of_unimplemented hs hr hd]
      exact raise_exists_next _ s
    | instr i =>
      rw [step_of_instr hs hr hd]
      exact exec_exists_next i s

/-- Settles O21: GAP is the pc advance alone, and the word 0 decodes to it. -/
theorem gapSkips : Obligations.GapSkips := by
  constructor
  · intro s
    exact ⟨advance none s, exec_gap s, advance_pc none s, readReg_advance none s, fun _ => rfl, rfl, rfl⟩
  · intro s hs hr hw
    exact step_of_instr hs hr (by rw [hw, decode_zero])

end Sys2Proof.Machine
end

section
/-! PROOFS. The control transfer instructions (41_control_transfer.md R150 to R152): which words decode to them, and the
state each one leaves. -/

namespace Sys2Proof

/-- R92: the opcode alone picks JAL. -/
theorem decode_of_jalOpcode {w : Word} (h : opcodeOf w = 0b1101111) : decode w = .instr (.jal (rdOf w) (fieldJ w)) := by
  have hop : dispatchOp w = .jal := by
    rw [dispatchOp_of_opcode (by rw [h]; decide), h]
    rfl
  rw [decode, hop]

/-- R93: the BRANCH opcode leads to the funct3 level. -/
theorem dispatchOp_of_branchOpcode {w : Word} (h : opcodeOf w = 0b1100011) : dispatchOp w = branchOp (funct3Of w) := by
  rw [dispatchOp_of_opcode (by rw [h]; decide), h]
  rfl

theorem decode_of_beqFields {w : Word} (h : opcodeOf w = 0b1100011) (h3 : funct3Of w = 0b000) :
    decode w = .instr (.beq (rs1Of w) (rs2Of w) (fieldB w)) := by
  have hop : dispatchOp w = .beq := by
    rw [dispatchOp_of_branchOpcode h, h3]
    rfl
  rw [decode, hop]

theorem decode_of_bneFields {w : Word} (h : opcodeOf w = 0b1100011) (h3 : funct3Of w = 0b001) :
    decode w = .instr (.bne (rs1Of w) (rs2Of w) (fieldB w)) := by
  have hop : dispatchOp w = .bne := by
    rw [dispatchOp_of_branchOpcode h, h3]
    rfl
  rw [decode, hop]

end Sys2Proof

namespace Sys2Proof.Machine

/-! ## The frame of a cycle that ends in the pc advance, with a register write before it or without -/

theorem regsAfter_advance_writeReg (o : Option Word) (s : State) (rd : RegIdx) (v : Word) :
    RegsAfter s (advance o (writeReg s rd v)) rd v := by
  intro r
  rw [readReg_advance, readReg_writeReg]

theorem bytesSame_advance_writeReg (o : Option Word) (s : State) (rd : RegIdx) (v : Word) :
    BytesSame s (advance o (writeReg s rd v)) := by
  intro a
  rw [readByte, advance_mem, writeReg_mem, readByte]

theorem statusSame_advance_writeReg (o : Option Word) (s : State) (rd : RegIdx) (v : Word) :
    StatusSame s (advance o (writeReg s rd v)) :=
  ⟨writeReg_status s rd v, writeReg_config s rd v⟩

theorem advance_changes_only_pc (o : Option Word) (s : State) :
    RegsSame s (advance o s) ∧ BytesSame s (advance o s) ∧ StatusSame s (advance o s) :=
  ⟨readReg_advance o s, fun _ => rfl, rfl, rfl⟩

/-! ## JAL -/

theorem exec_jal (rd : RegIdx) (imm : BitVec 21) (s : State) :
    exec (.jal rd imm) s = .next (advance (some (pcTarget s imm)) (writeReg s rd (link s))) := rfl

/-- Settles O15: the opcode decides the decoding; the link is a register write, and the pc advance takes the target. -/
theorem jalLinksAndJumps : Obligations.JalLinksAndJumps := by
  constructor
  · exact fun _ => decode_of_jalOpcode
  · intro rd imm s
    exact ⟨_, exec_jal rd imm s, regsAfter_advance_writeReg _ s rd (link s), rfl, bytesSame_advance_writeReg _ s rd _,
      statusSame_advance_writeReg _ s rd _⟩

/-! ## The branches -/

@[simp] theorem cmpEq_iff (a b : Word) : cmpEq a b = true ↔ a = b := beq_iff_eq

theorem exec_beq (rs1 rs2 : RegIdx) (imm : BitVec 13) (s : State) :
    exec (.beq rs1 rs2 imm) s = .next (advance (branchTarget (cmpEq (readReg s rs1) (readReg s rs2)) imm s) s) := rfl

theorem exec_bne (rs1 rs2 : RegIdx) (imm : BitVec 13) (s : State) :
    exec (.bne rs1 rs2 imm) s = .next (advance (branchTarget (!cmpEq (readReg s rs1) (readReg s rs2)) imm s) s) := rfl

/-- R127, R128: only a taken branch sets the explicit target. -/
theorem advance_branchTarget_pc (taken : Bool) (imm : BitVec 13) (s : State) :
    (advance (branchTarget taken imm s) s).pc = if taken then s.pc + sext imm else s.pc + 4 := by
  cases taken <;> rfl

/-- Settles O16: the branch is taken when the comparator says equal, and its cycle is the pc advance alone. -/
theorem beqBranchesOnEquality : Obligations.BeqBranchesOnEquality := by
  constructor
  · exact fun _ => decode_of_beqFields
  · intro rs1 rs2 imm s
    refine ⟨_, exec_beq rs1 rs2 imm s, ?_, advance_changes_only_pc _ s⟩
    simp only [advance_branchTarget_pc, cmpEq_iff]

/-- Settles O17: the branch is taken when the comparator does not say equal, and its cycle is the pc advance alone. -/
theorem bneBranchesOnInequality : Obligations.BneBranchesOnInequality := by
  constructor
  · exact fun _ => decode_of_bneFields
  · intro rs1 rs2 imm s
    refine ⟨_, exec_bne rs1 rs2 imm s, ?_, advance_changes_only_pc _ s⟩
    simp only [advance_branchTarget_pc, Bool.not_eq_true', ← Bool.not_eq_true, cmpEq_iff, ite_not]

end Sys2Proof.Machine
end

section
/-! PROOFS. ECALL and the cycle of every SYSTEM-opcode word (42_environment.md R160, R161). -/

namespace Sys2Proof

/-- R161: the opcode alone picks ECALL; the other bits are kept as its operand. -/
theorem decode_of_systemOpcode {w : Word} (h : opcodeOf w = 0b1110011) :
    decode w = .instr (.ecall (w.extractLsb' 7 25)) := by
  rw [decode, (dispatchOp_eq_ecall w).2 h]

end Sys2Proof

namespace Sys2Proof.Machine

/-- R160, R161: the state ECALL leaves does not depend on the unexamined bits. -/
theorem exec_ecall (b : BitVec 25) (s : State) : exec (.ecall b) s = .next (advance none (halt s)) := rfl

theorem regsSame_advance_halt (o : Option Word) (s : State) : RegsSame s (advance o (halt s)) := by
  intro r
  rw [readReg_advance, readReg_halt]

theorem bytesSame_advance_halt (o : Option Word) (s : State) : BytesSame s (advance o (halt s)) := by
  intro a
  rw [readByte, advance_mem, halt_mem, readByte]

/-- Settles O19: the fetched word decodes to ECALL with some operand, and ECALL's state is the same for every operand. -/
theorem systemWordsAllHalt : Obligations.SystemWordsAllHalt := by
  intro s hs hr hopcode
  have hstep : step s = .next (advance none (halt s)) := by
    rw [step_of_instr hs hr (decode_of_systemOpcode hopcode), exec_ecall]
  exact ⟨_, hstep, exec_ecall 0 s, rfl, regsSame_advance_halt none s, bytesSame_advance_halt none s⟩

end Sys2Proof.Machine
end

section
/-! PROOFS. The integer instructions with an immediate (44_integer_immediate.md R175, R177 to R179): which words decode to
them, the value each one computes, and the state each one leaves. -/

namespace Sys2Proof

/-! ## Decoding -/

/-- R93: the OP-IMM opcode leads to the funct3 level. -/
theorem dispatchOp_of_opImmOpcode {w : Word} (h : opcodeOf w = 0b0010011) : dispatchOp w = opImmOp (funct3Of w) := by
  rw [dispatchOp_of_opcode (by rw [h]; decide), h]
  rfl

theorem decode_of_addiFields {w : Word} (h : opcodeOf w = 0b0010011) (h3 : funct3Of w = 0b000) :
    decode w = .instr (.addi (rdOf w) (rs1Of w) (fieldI w)) := by
  have hop : dispatchOp w = .addi := by
    rw [dispatchOp_of_opImmOpcode h, h3]
    rfl
  rw [decode, hop]

theorem decode_of_oriFields {w : Word} (h : opcodeOf w = 0b0010011) (h3 : funct3Of w = 0b110) :
    decode w = .instr (.ori (rdOf w) (rs1Of w) (fieldI w)) := by
  have hop : dispatchOp w = .ori := by
    rw [dispatchOp_of_opImmOpcode h, h3]
    rfl
  rw [decode, hop]

/-- R92: the opcode alone picks LUI. -/
theorem decode_of_luiOpcode {w : Word} (h : opcodeOf w = 0b0110111) : decode w = .instr (.lui (rdOf w) (fieldU w)) := by
  have hop : dispatchOp w = .lui := by
    rw [dispatchOp_of_opcode (by rw [h]; decide), h]
    rfl
  rw [decode, hop]

/-- R92: the opcode alone picks AUIPC. -/
theorem decode_of_auipcOpcode {w : Word} (h : opcodeOf w = 0b0010111) :
    decode w = .instr (.auipc (rdOf w) (fieldU w)) := by
  have hop : dispatchOp w = .auipc := by
    rw [dispatchOp_of_opcode (by rw [h]; decide), h]
    rfl
  rw [decode, hop]

/-! ## Values -/

/-- Adding an extended field is integer addition of its signed value, reduced to a word (00_scope.md R9). -/
theorem add_sext_eq_ofInt {n : Nat} (a : Word) (f : BitVec n) : a + sext f = BitVec.ofInt 32 (a.toNat + f.toInt) := by
  rw [BitVec.ofInt_add, BitVec.ofInt_natCast, BitVec.ofNat_toNat, BitVec.setWidth_eq, sext_eq_ofInt_toInt]

theorem toNat_add_sext {n : Nat} (a : Word) (f : BitVec n) :
    ((a + sext f).toNat : Int) = (a.toNat + f.toInt) % 2 ^ 32 := by
  rw [add_sext_eq_ofInt, BitVec.toNat_ofInt]
  exact Int.toNat_of_nonneg (Int.emod_nonneg _ (by decide))

/-- An extended field repeats its top bit (00_scope.md R10). -/
theorem getLsbD_sext {n : Nat} (f : BitVec n) {k : Nat} (hk : k < 32) :
    (sext f).getLsbD k = if k < n then f.getLsbD k else f.getLsbD (n - 1) := by
  rw [sext, BitVec.getLsbD_signExtend, decide_eq_true hk, Bool.true_and, BitVec.msb_eq_getLsbD_last]

end Sys2Proof

namespace Sys2Proof.Machine

/-- R178: the shift is the concatenation with twelve zeros. -/
theorem upper_eq_append (imm : BitVec 20) : upper imm = imm ++ (0 : BitVec 12) := by
  have hlow : BitVec.setWidth' (by decide : 12 ≤ 20 + 12) (0 : BitVec 12) = 0 := rfl
  rw [BitVec.append_def, BitVec.shiftLeftZeroExtend_eq, hlow]
  exact BitVec.or_zero.symm

/-! ## The cycle that writes one register and advances the pc by 4 -/

/-- What such an instruction leaves, with a property `P` of the value it writes. -/
theorem exists_next_of_registerWrite {i : Instr} {s : State} {rd : RegIdx} {v : Word} {P : Word → Prop}
    (h : exec i s = .next (advance none (writeReg s rd v))) (hv : P v) :
    ∃ t v, exec i s = .next t ∧ RegsAfter s t rd v ∧ P v ∧ t.pc = s.pc + 4 ∧ BytesSame s t ∧ StatusSame s t := by
  have hpc : (advance none (writeReg s rd v)).pc = s.pc + 4 := by
    rw [advance_pc, Option.getD_none, writeReg_pc]
  exact ⟨_, v, h, regsAfter_advance_writeReg none s rd v, hv, hpc, bytesSame_advance_writeReg none s rd v,
    statusSame_advance_writeReg none s rd v⟩

/-! ## The instructions -/

theorem exec_addi (rd rs1 : RegIdx) (imm : BitVec 12) (s : State) :
    exec (.addi rd rs1 imm) s = .next (advance none (writeReg s rd (readReg s rs1 + sext imm))) := rfl

theorem exec_ori (rd rs1 : RegIdx) (imm : BitVec 12) (s : State) :
    exec (.ori rd rs1 imm) s = .next (advance none (writeReg s rd (readReg s rs1 ||| sext imm))) := rfl

theorem exec_lui (rd : RegIdx) (imm : BitVec 20) (s : State) :
    exec (.lui rd imm) s = .next (advance none (writeReg s rd (upper imm))) := rfl

theorem exec_auipc (rd : RegIdx) (imm : BitVec 20) (s : State) :
    exec (.auipc rd imm) s = .next (advance none (writeReg s rd (s.pc + upper imm))) := rfl

/-- Settles O32: the value written is the word of the integer sum. -/
theorem addiAddsImmediate : Obligations.AddiAddsImmediate := by
  constructor
  · exact fun _ => decode_of_addiFields
  · intro rd rs1 imm s
    exact exists_next_of_registerWrite (exec_addi rd rs1 imm s) (toNat_add_sext (readReg s rs1) imm)

/-- Settles O34: the extended immediate repeats bit 11 above its field, and the or is taken bit by bit. -/
theorem oriOrsImmediate : Obligations.OriOrsImmediate := by
  constructor
  · exact fun _ => decode_of_oriFields
  · intro rd rs1 imm s
    refine exists_next_of_registerWrite (exec_ori rd rs1 imm s) fun k hk => ?_
    rw [BitVec.getLsbD_or, getLsbD_sext imm hk]

/-- Settles O35: the value written is the upper immediate, which has twelve zeros below its field. -/
theorem luiLoadsUpper : Obligations.LuiLoadsUpper := by
  constructor
  · exact fun _ => decode_of_luiOpcode
  · intro rd imm s
    exact exists_next_of_registerWrite (exec_lui rd imm s) (upper_eq_append imm)

/-- Settles O36: the pc added to the upper immediate is that of the state before the cycle. -/
theorem auipcAddsUpperToPc : Obligations.AuipcAddsUpperToPc := by
  constructor
  · exact fun _ => decode_of_auipcOpcode
  · intro rd imm s
    exact exists_next_of_registerWrite (exec_auipc rd imm s) (congrArg (s.pc + ·) (upper_eq_append imm))

end Sys2Proof.Machine
end

section
/-! PROOFS. The integer instructions on two registers (45_integer_register.md R190 to R192): which words decode to them,
the value each one computes, and the state each one leaves. -/

namespace Sys2Proof

/-! ## Decoding -/

/-- R93, R94: the OP opcode leads to the funct3 and funct7 levels. -/
theorem dispatchOp_of_opOpcode {w : Word} (h : opcodeOf w = 0b0110011) :
    dispatchOp w = opOp (funct3Of w) (funct7Of w) := by
  rw [dispatchOp_of_opcode (by rw [h]; decide), h]
  rfl

theorem decode_of_xorFields {w : Word} (h : opcodeOf w = 0b0110011) (h3 : funct3Of w = 0b100)
    (h7 : funct7Of w = 0b0000000) : decode w = .instr (.xor (rdOf w) (rs1Of w) (rs2Of w)) := by
  have hop : dispatchOp w = .xor := by
    rw [dispatchOp_of_opOpcode h, h3, h7]
    rfl
  rw [decode, hop]

theorem decode_of_srlFields {w : Word} (h : opcodeOf w = 0b0110011) (h3 : funct3Of w = 0b101)
    (h7 : funct7Of w = 0b0000000) : decode w = .instr (.srl (rdOf w) (rs1Of w) (rs2Of w)) := by
  have hop : dispatchOp w = .srl := by
    rw [dispatchOp_of_opOpcode h, h3, h7]
    rfl
  rw [decode, hop]

theorem decode_of_remFields {w : Word} (h : opcodeOf w = 0b0110011) (h3 : funct3Of w = 0b110)
    (h7 : funct7Of w = 0b0000001) : decode w = .instr (.rem (rdOf w) (rs1Of w) (rs2Of w)) := by
  have hop : dispatchOp w = .rem := by
    rw [dispatchOp_of_opOpcode h, h3, h7]
    rfl
  rw [decode, hop]

end Sys2Proof

namespace Sys2Proof.Machine

/-! ## Values -/

/-- The low five bits of a shift operand are its value modulo 32. -/
theorem shiftAmount_eq_mod (v : Word) : shiftAmount v = v.toNat % 32 := BitVec.extractLsb'_toNat 0 5 v

theorem toNat_srl (a b : Word) : (srl a b).toNat = a.toNat / 2 ^ (b.toNat % 32) := by
  rw [srl, BitVec.toNat_ushiftRight, Nat.shiftRight_eq_div_pow, shiftAmount_eq_mod]

theorem getLsbD_srl (a b : Word) (k : Nat) : (srl a b).getLsbD k = a.getLsbD (b.toNat % 32 + k) := by
  rw [srl, BitVec.getLsbD_ushiftRight, shiftAmount_eq_mod]

/-- The fill with zeros: bit 31 of a shifted word comes from above the operand. -/
theorem getLsbD_srl_top {a b : Word} (h : b.toNat % 32 ≠ 0) : (srl a b).getLsbD 31 = false := by
  rw [getLsbD_srl]
  exact BitVec.getLsbD_of_ge a _ (by omega)

/-- R192's two corner cases are those of the truncated remainder itself: it leaves the dividend for divisor 0, and for
INT32_MIN by -1 it is 0. -/
theorem rem32_eq_srem (a b : Word) : rem32 a b = a.srem b := by
  rw [rem32]
  split_ifs with hzero hoverflow
  · rw [hzero]
    exact BitVec.srem_zero.symm
  · obtain ⟨hdividend, hdivisor⟩ := hoverflow
    rw [hdividend, hdivisor]
    decide
  · rw [← BitVec.toInt_srem, BitVec.ofInt_toInt]

theorem toInt_rem32 (a b : Word) : (rem32 a b).toInt = Int.tmod a.toInt b.toInt := by
  rw [rem32_eq_srem, BitVec.toInt_srem]

theorem rem32_of_divisor_zero (a : Word) {b : Word} (h : b = 0) : rem32 a b = a := if_pos h

theorem rem32_of_overflow {a b : Word} (ha : a = 0x80000000) (hb : b = 0xFFFFFFFF) : rem32 a b = 0 := by
  rw [ha, hb]
  decide

/-! ## The instructions -/

theorem exec_xor (rd rs1 rs2 : RegIdx) (s : State) :
    exec (.xor rd rs1 rs2) s = .next (advance none (writeReg s rd (readReg s rs1 ^^^ readReg s rs2))) := rfl

theorem exec_srl (rd rs1 rs2 : RegIdx) (s : State) :
    exec (.srl rd rs1 rs2) s = .next (advance none (writeReg s rd (srl (readReg s rs1) (readReg s rs2)))) := rfl

theorem exec_rem (rd rs1 rs2 : RegIdx) (s : State) :
    exec (.rem rd rs1 rs2) s = .next (advance none (writeReg s rd (rem32 (readReg s rs1) (readReg s rs2)))) := rfl

/-- Settles O37: the exclusive or is taken bit by bit. -/
theorem xorXorsRegisters : Obligations.XorXorsRegisters := by
  constructor
  · exact fun _ => decode_of_xorFields
  · intro rd rs1 rs2 s
    exact exists_next_of_registerWrite (exec_xor rd rs1 rs2 s) fun _ => BitVec.getLsbD_xor

/-- Settles O38: the shift is a division, and a nonzero amount moves bit 31 down. -/
theorem srlShiftsRightZeroFilling : Obligations.SrlShiftsRightZeroFilling := by
  constructor
  · exact fun _ => decode_of_srlFields
  · intro rd rs1 rs2 s
    obtain ⟨t, v, hexec, hregs, hv, hframe⟩ :=
      exists_next_of_registerWrite (P := (· = srl (readReg s rs1) (readReg s rs2))) (exec_srl rd rs1 rs2 s) rfl
    subst hv
    exact ⟨t, _, hexec, hregs, toNat_srl _ _, getLsbD_srl_top, hframe⟩

/-- Settles O39: the value written is the truncated remainder, for every divisor, with its two corner cases read off. -/
theorem remTruncatedRemainder : Obligations.RemTruncatedRemainder := by
  constructor
  · exact fun _ => decode_of_remFields
  · intro rd rs1 rs2 s
    obtain ⟨t, v, hexec, hregs, hv, hframe⟩ :=
      exists_next_of_registerWrite (P := (· = rem32 (readReg s rs1) (readReg s rs2))) (exec_rem rd rs1 rs2 s) rfl
    subst hv
    exact ⟨t, _, hexec, hregs, rem32_of_divisor_zero _, rem32_of_overflow, fun _ => toInt_rem32 _ _, hframe⟩

end Sys2Proof.Machine
end

section
/-! PROOFS. The dispatch tree and the opcode table (30_encoding.md R96, R97, R100): the tree answers the operation of the
one row whose match test holds. -/

namespace Sys2Proof

/-! ## The rows that the families above do not decode -/

/-- R92, R93: LOAD has one funct3. -/
theorem decode_of_lwFields {w : Word} (h : opcodeOf w = 0b0000011) (h3 : funct3Of w = 0b010) :
    decode w = .instr (.lw (rdOf w) (rs1Of w) (fieldI w)) := by
  have hop : dispatchOp w = .lw := by
    rw [dispatchOp_of_opcode (by rw [h]; decide), h, h3]
    rfl
  rw [decode, hop]

/-- R92, R93: STORE has one funct3. -/
theorem decode_of_swFields {w : Word} (h : opcodeOf w = 0b0100011) (h3 : funct3Of w = 0b010) :
    decode w = .instr (.sw (rs1Of w) (rs2Of w) (fieldS w)) := by
  have hop : dispatchOp w = .sw := by
    rw [dispatchOp_of_opcode (by rw [h]; decide), h, h3]
    rfl
  rw [decode, hop]

/-- R95: funct7 is not examined. -/
theorem decode_of_slliFields {w : Word} (h : opcodeOf w = 0b0010011) (h3 : funct3Of w = 0b001) :
    decode w = .instr (.slli (rdOf w) (rs1Of w) (fieldI w)) := by
  have hop : dispatchOp w = .slli := by
    rw [dispatchOp_of_opImmOpcode h, h3]
    rfl
  rw [decode, hop]

/-! ## From a row to the operation and back -/

/-- The operation dispatched, read off the instruction decoded. -/
theorem dispatchOp_of_decode {w : Word} {i : Instr} (h : decode w = .instr i) : dispatchOp w = i.op :=
  (op_of_decode h).symm

/-- A row's match test is the condition on the fixed fields under which its operation is dispatched. -/
theorem dispatchOp_of_matches (w : Word) : ∀ r ∈ opcodeTable, r.matches w = true → dispatchOp w = r.op := by
  simp (disch := decide) only [opcodeTable, List.cons_append, List.nil_append, List.forall_mem_cons,
    matches_opcodeMask_iff, matches_funct3Mask_iff, matches_funct7Mask_iff, matches_fullMask_iff]
  refine ⟨?jal, ?ecall, ?beq, ?bne, ?lw, ?sw, ?addi, ?slli, ?ori, ?lui, ?auipc, ?xor, ?srl, ?rem, ?gap, by simp⟩
  case jal => exact fun ho => dispatchOp_of_decode (decode_of_jalOpcode ho)
  case ecall => exact fun ho => dispatchOp_of_decode (decode_of_systemOpcode ho)
  case beq => exact fun ⟨ho, h3⟩ => dispatchOp_of_decode (decode_of_beqFields ho h3)
  case bne => exact fun ⟨ho, h3⟩ => dispatchOp_of_decode (decode_of_bneFields ho h3)
  case lw => exact fun ⟨ho, h3⟩ => dispatchOp_of_decode (decode_of_lwFields ho h3)
  case sw => exact fun ⟨ho, h3⟩ => dispatchOp_of_decode (decode_of_swFields ho h3)
  case addi => exact fun ⟨ho, h3⟩ => dispatchOp_of_decode (decode_of_addiFields ho h3)
  case slli => exact fun ⟨ho, h3⟩ => dispatchOp_of_decode (decode_of_slliFields ho h3)
  case ori => exact fun ⟨ho, h3⟩ => dispatchOp_of_decode (decode_of_oriFields ho h3)
  case lui => exact fun ho => dispatchOp_of_decode (decode_of_luiOpcode ho)
  case auipc => exact fun ho => dispatchOp_of_decode (decode_of_auipcOpcode ho)
  case xor => exact fun ⟨ho, h3, h7⟩ => dispatchOp_of_decode (decode_of_xorFields ho h3 h7)
  case srl => exact fun ⟨ho, h3, h7⟩ => dispatchOp_of_decode (decode_of_srlFields ho h3 h7)
  case rem => exact fun ⟨ho, h3, h7⟩ => dispatchOp_of_decode (decode_of_remFields ho h3 h7)
  case gap => exact fun hw => hw ▸ dispatchOp_zero

/-- No operation has two rows. -/
theorem opcodeTable_op_injective : ∀ r ∈ opcodeTable, ∀ r' ∈ opcodeTable, r.op = r'.op → r = r' := by decide

theorem opcodeTable_op_ne_unimpl : ∀ r ∈ opcodeTable, r.op ≠ .unimpl := by decide

theorem opcodeTable_format : ∀ r ∈ opcodeTable, r.format = r.op.format := by decide

/-- Every word that is not UNIMPL has a row. -/
theorem exists_row_of_dispatchOp {w : Word} (h : dispatchOp w ≠ .unimpl) :
    ∃ r ∈ opcodeTable, r.matches w = true := by
  by_contra hnone
  exact h (dispatchOp_eq_unimpl_of_no_row (by simpa using hnone))

/-- R97: the operation dispatched is a row's exactly when the row's test holds, because the row that does match has the
same operation. -/
theorem matches_iff_dispatchOp_eq {r : Row} (hr : r ∈ opcodeTable) (w : Word) :
    r.matches w = true ↔ dispatchOp w = r.op := by
  constructor
  · exact dispatchOp_of_matches w r hr
  · intro hop
    obtain ⟨r', hr', hmatch⟩ := exists_row_of_dispatchOp (hop ▸ opcodeTable_op_ne_unimpl r hr)
    have hsame : r = r' := opcodeTable_op_injective r hr r' hr' (hop ▸ dispatchOp_of_matches w r' hr' hmatch)
    exact hsame ▸ hmatch

/-- R100: UNIMPL is the word that no row matches. -/
theorem dispatchOp_eq_unimpl_iff (w : Word) :
    dispatchOp w = .unimpl ↔ ∀ r ∈ opcodeTable, r.matches w = false := by
  constructor
  · intro hop r hr
    rw [← Bool.not_eq_true, matches_iff_dispatchOp_eq hr, hop]
    exact (opcodeTable_op_ne_unimpl r hr).symm
  · exact dispatchOp_eq_unimpl_of_no_row

/-- R82: the dispatch adds nothing to the operation but the operation's own format. -/
theorem dispatch_eq_iff (w : Word) {op : Op} {f : Option Format} (hf : f = op.format) :
    dispatch w = (op, f) ↔ dispatchOp w = op := by
  rw [dispatch, Prod.mk.injEq, hf, and_iff_left_of_imp (congrArg Op.format)]

/-- Settles O11: a row's test holds exactly when its operation is dispatched, and each operation has one row. -/
theorem dispatchMatchesOpcodeTable : Obligations.DispatchMatchesOpcodeTable := by
  refine ⟨fun w r hr => ?_, fun w r r' hr hr' hm hm' => ?_, fun w => ?_⟩
  · rw [matches_iff_dispatchOp_eq hr, dispatch_eq_iff w (opcodeTable_format r hr)]
  · rw [matches_iff_dispatchOp_eq hr] at hm
    rw [matches_iff_dispatchOp_eq hr'] at hm'
    exact opcodeTable_op_injective r hr r' hr' (hm.symm.trans hm')
  · exact (dispatch_eq_iff w rfl).trans (dispatchOp_eq_unimpl_iff w)

end Sys2Proof
end

section
/-! PROOFS. The encoder and the decoder are inverse (30_encoding.md R81 to R88): what each format's layout puts into a
field is read back from it, and a word is its own fields put together. -/

namespace Sys2Proof

/-! ## The fields of an encoded word -/

theorem fields_encodeR (funct7 : BitVec 7) (rs2 rs1 : RegIdx) (funct3 : BitVec 3) (rd : RegIdx) (opcode : BitVec 7) :
    rdOf (encodeR funct7 rs2 rs1 funct3 rd opcode) = rd ∧ rs1Of (encodeR funct7 rs2 rs1 funct3 rd opcode) = rs1 ∧
    rs2Of (encodeR funct7 rs2 rs1 funct3 rd opcode) = rs2 := by
  simp (disch := decide) only [encodeR, rdOf, rs1Of, rs2Of, regBits, BitVec.extractLsb'_append_eq_of_le,
    BitVec.extractLsb'_append_eq_of_add_le, Nat.reduceSub, BitVec.extractLsb'_eq_self, and_self]

theorem fields_encodeI (imm : BitVec 12) (rs1 : RegIdx) (funct3 : BitVec 3) (rd : RegIdx) (opcode : BitVec 7) :
    rdOf (encodeI imm rs1 funct3 rd opcode) = rd ∧ rs1Of (encodeI imm rs1 funct3 rd opcode) = rs1 ∧
    fieldI (encodeI imm rs1 funct3 rd opcode) = imm := by
  simp (disch := decide) only [encodeI, rdOf, rs1Of, fieldI, regBits, BitVec.extractLsb'_append_eq_of_le,
    BitVec.extractLsb'_append_eq_of_add_le, Nat.reduceSub, BitVec.extractLsb'_eq_self, and_self]

theorem fields_encodeS (imm : BitVec 12) (rs2 rs1 : RegIdx) (funct3 : BitVec 3) (opcode : BitVec 7) :
    rs1Of (encodeS imm rs2 rs1 funct3 opcode) = rs1 ∧ rs2Of (encodeS imm rs2 rs1 funct3 opcode) = rs2 ∧
    fieldS (encodeS imm rs2 rs1 funct3 opcode) = imm := by
  simp (disch := decide) only [encodeS, rs1Of, rs2Of, fieldS, regBits, BitVec.extractLsb'_append_eq_of_le,
    BitVec.extractLsb'_append_eq_of_add_le, Nat.reduceSub, BitVec.extractLsb'_eq_self,
    BitVec.extractLsb'_append_extractLsb'_eq_extractLsb', and_self]

theorem fields_encodeU (imm : BitVec 20) (rd : RegIdx) (opcode : BitVec 7) :
    rdOf (encodeU imm rd opcode) = rd ∧ fieldU (encodeU imm rd opcode) = imm := by
  simp (disch := decide) only [encodeU, rdOf, fieldU, regBits, BitVec.extractLsb'_append_eq_of_le,
    BitVec.extractLsb'_append_eq_of_add_le, Nat.reduceSub, BitVec.extractLsb'_eq_self, and_self]

/-- R86, R88: bit 0 of an even offset, which the layouts of B and J leave out, is put back by the decoder. -/
theorem append_zero_of_evenOffset {n : Nat} {f : BitVec (n + 1)} (h : evenOffset f = true) :
    f.extractLsb' 1 n ++ 0#1 = f := by
  have hbit : 0#1 = f.extractLsb' 0 1 := by
    apply BitVec.eq_of_getLsbD_eq
    intro k hk
    obtain rfl : k = 0 := by omega
    simpa using (evenOffset_iff f).1 h
  rw [hbit]
  exact BitVec.extractLsb'_append_extractLsb'

theorem fields_encodeB {imm : BitVec 13} (h : evenOffset imm = true) (rs2 rs1 : RegIdx) (funct3 : BitVec 3)
    (opcode : BitVec 7) :
    rs1Of (encodeB imm rs2 rs1 funct3 opcode) = rs1 ∧ rs2Of (encodeB imm rs2 rs1 funct3 opcode) = rs2 ∧
    fieldB (encodeB imm rs2 rs1 funct3 opcode) = imm := by
  simp (disch := decide) only [encodeB, rs1Of, rs2Of, fieldB, regBits, BitVec.extractLsb'_append_eq_of_le,
    BitVec.extractLsb'_append_eq_of_add_le, Nat.reduceSub, BitVec.extractLsb'_eq_self,
    BitVec.extractLsb'_append_extractLsb'_eq_extractLsb', true_and]
  exact append_zero_of_evenOffset h

theorem fields_encodeJ {imm : BitVec 21} (h : evenOffset imm = true) (rd : RegIdx) (opcode : BitVec 7) :
    rdOf (encodeJ imm rd opcode) = rd ∧ fieldJ (encodeJ imm rd opcode) = imm := by
  simp (disch := decide) only [encodeJ, rdOf, fieldJ, regBits, BitVec.extractLsb'_append_eq_of_le,
    BitVec.extractLsb'_append_eq_of_add_le, Nat.reduceSub, BitVec.extractLsb'_eq_self,
    BitVec.extractLsb'_append_extractLsb'_eq_extractLsb', true_and]
  exact append_zero_of_evenOffset h

/-! ## Decoding an encoded instruction -/

theorem rowMatched (i : Instr) : Laws.RowMatched.Statement i := by
  cases i with
  | jal rd imm => exact Laws.RowMatched.jal rd imm
  | ecall b => exact Laws.RowMatched.ecall b
  | beq rs1 rs2 imm => exact Laws.RowMatched.beq rs1 rs2 imm
  | bne rs1 rs2 imm => exact Laws.RowMatched.bne rs1 rs2 imm
  | lw rd rs1 imm => exact Laws.RowMatched.lw rd rs1 imm
  | sw rs1 rs2 imm => exact Laws.RowMatched.sw rs1 rs2 imm
  | addi rd rs1 imm => exact Laws.RowMatched.addi rd rs1 imm
  | slli rd rs1 imm => exact Laws.RowMatched.slli rd rs1 imm
  | ori rd rs1 imm => exact Laws.RowMatched.ori rd rs1 imm
  | lui rd imm => exact Laws.RowMatched.lui rd imm
  | auipc rd imm => exact Laws.RowMatched.auipc rd imm
  | xor rd rs1 rs2 => exact Laws.RowMatched.xor rd rs1 rs2
  | srl rd rs1 rs2 => exact Laws.RowMatched.srl rd rs1 rs2
  | rem rd rs1 rs2 => exact Laws.RowMatched.rem rd rs1 rs2
  | gap => exact Laws.RowMatched.gap

/-- The row an instruction's word matches is the row of its operation. -/
theorem dispatchOp_encode (i : Instr) : dispatchOp (encode i) = i.op := by
  obtain ⟨r, hr, hop, hmatch⟩ := rowMatched i
  rw [dispatchOp_of_matches _ r hr hmatch, hop]

/-- Settles O8: the word dispatches to the instruction's operation, and each operand is read back from its field. Only the
offsets of JAL, BEQ and BNE need to be well formed. -/
theorem decodeEncodeRoundTrip : Obligations.DecodeEncodeRoundTrip := by
  intro i hwf
  rw [decode, dispatchOp_encode]
  cases i with
  | jal rd imm => simp only [Instr.op, encode, fields_encodeJ hwf]
  | ecall b => exact congrArg (Decoded.instr ∘ Instr.ecall) BitVec.extractLsb'_append_eq_left
  | beq rs1 rs2 imm => simp only [Instr.op, encode, fields_encodeB hwf]
  | bne rs1 rs2 imm => simp only [Instr.op, encode, fields_encodeB hwf]
  | sw rs1 rs2 imm => simp only [Instr.op, encode, fields_encodeS]
  | lw rd rs1 imm => simp only [Instr.op, encode, fields_encodeI]
  | addi rd rs1 imm => simp only [Instr.op, encode, fields_encodeI]
  | slli rd rs1 imm => simp only [Instr.op, encode, fields_encodeI]
  | ori rd rs1 imm => simp only [Instr.op, encode, fields_encodeI]
  | lui rd imm => simp only [Instr.op, encode, fields_encodeU]
  | auipc rd imm => simp only [Instr.op, encode, fields_encodeU]
  | xor rd rs1 rs2 => simp only [Instr.op, encode, fields_encodeR]
  | srl rd rs1 rs2 => simp only [Instr.op, encode, fields_encodeR]
  | rem rd rs1 rs2 => simp only [Instr.op, encode, fields_encodeR]
  | gap => rfl

/-! ## A word is its fields put together -/

theorem encodeR_fields {w : Word} {funct7 : BitVec 7} {funct3 : BitVec 3} {opcode : BitVec 7}
    (h : opcodeOf w = opcode ∧ funct3Of w = funct3 ∧ funct7Of w = funct7) :
    encodeR funct7 (rs2Of w) (rs1Of w) funct3 (rdOf w) opcode = w := by
  obtain ⟨rfl, rfl, rfl⟩ := h
  simp (disch := decide) only [encodeR, rdOf, rs1Of, rs2Of, funct3Of, funct7Of, opcodeOf, regBits, BitVec.ofFin_toFin,
    BitVec.extractLsb'_append_extractLsb'_eq_extractLsb', BitVec.extractLsb'_eq_self]

theorem encodeI_fields {w : Word} {funct3 : BitVec 3} {opcode : BitVec 7}
    (h : opcodeOf w = opcode ∧ funct3Of w = funct3) :
    encodeI (fieldI w) (rs1Of w) funct3 (rdOf w) opcode = w := by
  obtain ⟨rfl, rfl⟩ := h
  simp (disch := decide) only [encodeI, rdOf, rs1Of, fieldI, funct3Of, opcodeOf, regBits, BitVec.ofFin_toFin,
    BitVec.extractLsb'_append_extractLsb'_eq_extractLsb', BitVec.extractLsb'_eq_self]

theorem encodeS_fields {w : Word} {funct3 : BitVec 3} {opcode : BitVec 7}
    (h : opcodeOf w = opcode ∧ funct3Of w = funct3) :
    encodeS (fieldS w) (rs2Of w) (rs1Of w) funct3 opcode = w := by
  obtain ⟨rfl, rfl⟩ := h
  simp (disch := decide) only [encodeS, rs1Of, rs2Of, fieldS, funct3Of, opcodeOf, regBits, BitVec.ofFin_toFin,
    BitVec.extractLsb'_append_eq_of_le, BitVec.extractLsb'_append_eq_of_add_le, Nat.reduceSub,
    BitVec.extractLsb'_append_extractLsb'_eq_extractLsb', BitVec.extractLsb'_eq_self]

theorem encodeB_fields {w : Word} {funct3 : BitVec 3} {opcode : BitVec 7}
    (h : opcodeOf w = opcode ∧ funct3Of w = funct3) :
    encodeB (fieldB w) (rs2Of w) (rs1Of w) funct3 opcode = w := by
  obtain ⟨rfl, rfl⟩ := h
  simp (disch := decide) only [encodeB, rs1Of, rs2Of, fieldB, funct3Of, opcodeOf, regBits, BitVec.ofFin_toFin,
    BitVec.extractLsb'_append_eq_of_le, BitVec.extractLsb'_append_eq_of_add_le, Nat.reduceSub,
    BitVec.extractLsb'_append_extractLsb'_eq_extractLsb', BitVec.extractLsb'_eq_self]

theorem encodeU_fields {w : Word} {opcode : BitVec 7} (h : opcodeOf w = opcode) :
    encodeU (fieldU w) (rdOf w) opcode = w := by
  subst h
  simp (disch := decide) only [encodeU, rdOf, fieldU, opcodeOf, regBits, BitVec.ofFin_toFin,
    BitVec.extractLsb'_append_extractLsb'_eq_extractLsb', BitVec.extractLsb'_eq_self]

theorem encodeJ_fields {w : Word} {opcode : BitVec 7} (h : opcodeOf w = opcode) :
    encodeJ (fieldJ w) (rdOf w) opcode = w := by
  subst h
  simp (disch := decide) only [encodeJ, rdOf, fieldJ, opcodeOf, regBits, BitVec.ofFin_toFin,
    BitVec.extractLsb'_append_eq_of_le, BitVec.extractLsb'_append_eq_of_add_le, Nat.reduceSub,
    BitVec.extractLsb'_append_extractLsb'_eq_extractLsb', BitVec.extractLsb'_eq_self]

/-- ECALL keeps every bit above its opcode. -/
theorem append_systemOpcode {w : Word} {opcode : BitVec 7} (h : opcodeOf w = opcode) :
    w.extractLsb' 7 25 ++ opcode = w := by
  subst h
  exact BitVec.extractLsb'_append_extractLsb'

/-! ## The fixed fields that an operation's row asks for -/

theorem opcodeOf_of_dispatchOp {w p : Word} {op : Op} (hr : ⟨op, op.format, p, 0x0000007F⟩ ∈ opcodeTable)
    (hp : p &&& 0x0000007F = p) (h : dispatchOp w = op) : opcodeOf w = opcodeOf p :=
  (matches_opcodeMask_iff hp w).1 ((matches_iff_dispatchOp_eq hr w).2 h)

theorem funct3Fields_of_dispatchOp {w p : Word} {op : Op} (hr : ⟨op, op.format, p, 0x0000707F⟩ ∈ opcodeTable)
    (hp : p &&& 0x0000707F = p) (h : dispatchOp w = op) : opcodeOf w = opcodeOf p ∧ funct3Of w = funct3Of p :=
  (matches_funct3Mask_iff hp w).1 ((matches_iff_dispatchOp_eq hr w).2 h)

theorem funct7Fields_of_dispatchOp {w p : Word} {op : Op} (hr : ⟨op, op.format, p, 0xFE00707F⟩ ∈ opcodeTable)
    (hp : p &&& 0xFE00707F = p) (h : dispatchOp w = op) :
    opcodeOf w = opcodeOf p ∧ funct3Of w = funct3Of p ∧ funct7Of w = funct7Of p :=
  (matches_funct7Mask_iff hp w).1 ((matches_iff_dispatchOp_eq hr w).2 h)

theorem eq_zero_of_dispatchOp_gap {w : Word} (h : dispatchOp w = .gap) : w = 0 :=
  (matches_fullMask_iff w).1
    ((matches_iff_dispatchOp_eq (r := ⟨.gap, none, 0x00000000, 0xFFFFFFFF⟩) (by decide) w).2 h)

/-- Settles O9: the row of the operation fixes the constant fields, and the operands are the other fields. -/
theorem encodeDecodeRoundTrip : Obligations.EncodeDecodeRoundTrip := by
  intro w i h
  cases hop : dispatchOp w <;> simp only [decode, hop, reduceCtorEq, Decoded.instr.injEq] at h <;> subst h
  case jal => exact ⟨evenOffset_fieldJ w, encodeJ_fields (opcodeOf_of_dispatchOp (p := 0x0000006F) (by decide) rfl hop)⟩
  case ecall => exact ⟨rfl, append_systemOpcode (opcodeOf_of_dispatchOp (p := 0x00000073) (by decide) rfl hop)⟩
  case beq =>
    exact ⟨evenOffset_fieldB w, encodeB_fields (funct3Fields_of_dispatchOp (p := 0x00000063) (by decide) rfl hop)⟩
  case bne =>
    exact ⟨evenOffset_fieldB w, encodeB_fields (funct3Fields_of_dispatchOp (p := 0x00001063) (by decide) rfl hop)⟩
  case lw => exact ⟨rfl, encodeI_fields (funct3Fields_of_dispatchOp (p := 0x00002003) (by decide) rfl hop)⟩
  case sw => exact ⟨rfl, encodeS_fields (funct3Fields_of_dispatchOp (p := 0x00002023) (by decide) rfl hop)⟩
  case addi => exact ⟨rfl, encodeI_fields (funct3Fields_of_dispatchOp (p := 0x00000013) (by decide) rfl hop)⟩
  case slli => exact ⟨rfl, encodeI_fields (funct3Fields_of_dispatchOp (p := 0x00001013) (by decide) rfl hop)⟩
  case ori => exact ⟨rfl, encodeI_fields (funct3Fields_of_dispatchOp (p := 0x00006013) (by decide) rfl hop)⟩
  case lui => exact ⟨rfl, encodeU_fields (opcodeOf_of_dispatchOp (p := 0x00000037) (by decide) rfl hop)⟩
  case auipc => exact ⟨rfl, encodeU_fields (opcodeOf_of_dispatchOp (p := 0x00000017) (by decide) rfl hop)⟩
  case xor => exact ⟨rfl, encodeR_fields (funct7Fields_of_dispatchOp (p := 0x00004033) (by decide) rfl hop)⟩
  case srl => exact ⟨rfl, encodeR_fields (funct7Fields_of_dispatchOp (p := 0x00005033) (by decide) rfl hop)⟩
  case rem => exact ⟨rfl, encodeR_fields (funct7Fields_of_dispatchOp (p := 0x02006033) (by decide) rfl hop)⟩
  case gap => exact ⟨rfl, (eq_zero_of_dispatchOp_gap hop).symm⟩

/-- Settles O10: each word is decoded by computation. -/
theorem specWordsDecode : Obligations.SpecWordsDecode := by
  unfold Obligations.SpecWordsDecode
  decide

end Sys2Proof
end

section
/-! PROOFS. Words and their bytes (20_memory.md R56 to R58), the bytes an access touches (R53, R54), and memory as the
map from address to byte that R50 describes. -/

namespace Sys2Proof

/-! ## A word and its four bytes -/

theorem wordOfBytes_byteOfWord (o : ByteOrder) (w : Word) :
    wordOfBytes o (byteOfWord o w 0) (byteOfWord o w 1) (byteOfWord o w 2) (byteOfWord o w 3) = w := by
  cases o <;> simp (disch := decide) only [wordOfBytes, byteOfWord, Nat.reduceSub, Nat.reduceMul,
    BitVec.extractLsb'_append_extractLsb'_eq_extractLsb', BitVec.extractLsb'_eq_self]

theorem bytesOfWord_wordOfBytes (o : ByteOrder) (b0 b1 b2 b3 : Byte) :
    bytesOfWord o (wordOfBytes o b0 b1 b2 b3) = [b0, b1, b2, b3] := by
  cases o <;> simp (disch := decide) only [wordOfBytes, bytesOfWord, byteOfWord, Nat.reduceSub, Nat.reduceMul,
    BitVec.extractLsb'_append_eq_of_le, BitVec.extractLsb'_append_eq_of_add_le, BitVec.extractLsb'_eq_self]

/-- Settles O14: neighbouring parts of a word join to the word, and each part of a join is read back. -/
theorem wordBytesRoundTrip : Obligations.WordBytesRoundTrip :=
  ⟨wordOfBytes_byteOfWord, bytesOfWord_wordOfBytes⟩

end Sys2Proof

namespace Sys2Proof.Machine

/-! ## The bytes an access touches -/

theorem presentLimit_strict {c : Config} (h : c.memoryMode = .strict) : presentLimit c = c.memSize := by
  simp [presentLimit, h]

theorem presentLimit_sparse {c : Config} (h : c.memoryMode = .sparse) : presentLimit c = 4294967296 := by
  simp [presentLimit, h]

theorem presentLimit_le {c : Config} (hwf : c.wf = true) : presentLimit c ≤ 4294967296 := by
  cases hmode : c.memoryMode with
  | strict => rw [presentLimit_strict hmode]; exact ((config_wf_iff c).1 hwf).2
  | sparse => rw [presentLimit_sparse hmode]

/-- R53, R54: strict mode's range check leaves room for all four bytes, and sparse mode wraps. -/
theorem byteAddress_lt_presentLimit {c : Config} {addr : Word} {i : Nat} (hr : inRange c addr = true) (hi : i < 4) :
    byteAddress c addr i < presentLimit c := by
  cases hmode : c.memoryMode with
  | strict =>
    rw [inRange_strict hmode] at hr
    rw [byteAddress_strict hmode, presentLimit_strict hmode]
    omega
  | sparse =>
    rw [byteAddress_sparse hmode, presentLimit_sparse hmode]
    exact Nat.mod_lt _ (by decide)

/-- With legal parameters the two modes' addresses are one formula: strict mode's range check rules the wrap out. -/
theorem byteAddress_eq_mod {c : Config} {addr : Word} {i : Nat} (hwf : c.wf = true) (hr : inRange c addr = true)
    (hi : i < 4) : byteAddress c addr i = (addr.toNat + i) % 4294967296 := by
  cases hmode : c.memoryMode with
  | strict =>
    have hsize := ((config_wf_iff c).1 hwf).2
    rw [inRange_strict hmode] at hr
    rw [byteAddress_strict hmode]
    omega
  | sparse => exact byteAddress_sparse hmode addr i

/-- Settles O26: both modes by their own range check. -/
theorem accessTouchesPresentBytes : Obligations.AccessTouchesPresentBytes := fun _ addr i hwf hr hi =>
  ⟨byteAddress_lt_presentLimit hr hi, presentLimit_le hwf, fun hmode => byteAddress_strict hmode addr i,
    byteAddress_eq_mod hwf hr hi⟩

/-! ## Memory as a map -/

theorem Memory.read_cons (k : Nat) (x : Byte) (m : Memory) (a : Nat) :
    Memory.read ((k, x) :: m) a = if k = a then x else Memory.read m a := rfl

theorem Memory.wfFrom_cons_iff (lo k : Nat) (x : Byte) (m : Memory) :
    Memory.wfFrom lo ((k, x) :: m) = true ↔ lo ≤ k ∧ x ≠ unlistedByte ∧ Memory.wfFrom (k + 1) m = true := by
  simp [Memory.wfFrom, and_assoc]

/-- A canonical list that is not empty reads other than `unlistedByte` at its first address. -/
theorem Memory.read_head_ne {lo k : Nat} {x : Byte} {m : Memory} (h : Memory.wfFrom lo ((k, x) :: m) = true) :
    Memory.read ((k, x) :: m) k ≠ unlistedByte := by
  rw [Memory.read_cons, if_pos rfl]
  exact ((Memory.wfFrom_cons_iff lo k x m).1 h).2.1

/-- The first listed address is the lowest one that does not read as `unlistedByte`. -/
theorem Memory.first_le_of_read_eq {lo lo' k k' : Nat} {x x' : Byte} {m m' : Memory}
    (h : Memory.wfFrom lo ((k, x) :: m) = true) (h' : Memory.wfFrom lo' ((k', x') :: m') = true)
    (hread : ∀ a, Memory.read ((k, x) :: m) a = Memory.read ((k', x') :: m') a) : k' ≤ k := by
  obtain ⟨-, hx', hm'⟩ := (Memory.wfFrom_cons_iff lo' k' x' m').1 h'
  by_contra hlt
  have htail : Memory.wfFrom k' ((k', x') :: m') = true := (Memory.wfFrom_cons_iff k' k' x' m').2 ⟨le_rfl, hx', hm'⟩
  exact Memory.read_head_ne h ((hread k).trans (Memory.read_of_wfFrom (Nat.lt_of_not_le hlt) htail))

/-- The tails of canonical lists that read alike read alike: the first address is below both. -/
theorem Memory.tail_read_eq {k : Nat} {x : Byte} {m m' : Memory} (h : Memory.wfFrom (k + 1) m = true)
    (h' : Memory.wfFrom (k + 1) m' = true)
    (hread : ∀ a, Memory.read ((k, x) :: m) a = Memory.read ((k, x) :: m') a) (a : Nat) :
    Memory.read m a = Memory.read m' a := by
  by_cases ha : k = a
  · subst ha
    rw [Memory.read_of_wfFrom (Nat.lt_succ_self k) h, Memory.read_of_wfFrom (Nat.lt_succ_self k) h']
  · simpa only [Memory.read_cons, if_neg ha] using hread a

theorem Memory.eq_of_read_eq : ∀ {m m' : Memory} {lo lo' : Nat}, Memory.wfFrom lo m = true →
    Memory.wfFrom lo' m' = true → (∀ a, Memory.read m a = Memory.read m' a) → m = m'
  | [], [], _, _, _, _, _ => rfl
  | [], (k, _) :: _, _, _, _, h', hread => absurd (hread k).symm (Memory.read_head_ne h')
  | (k, _) :: _, [], _, _, h, _, hread => absurd (hread k) (Memory.read_head_ne h)
  | (k, x) :: m, (k', x') :: m', lo, lo', h, h', hread => by
    obtain rfl : k = k' :=
      le_antisymm (Memory.first_le_of_read_eq h' h fun a => (hread a).symm) (Memory.first_le_of_read_eq h h' hread)
    obtain rfl : x = x' := by simpa only [Memory.read_cons, if_pos] using hread k
    have hm := ((Memory.wfFrom_cons_iff lo k x m).1 h).2.2
    have hm' := ((Memory.wfFrom_cons_iff lo' k x m').1 h').2.2
    rw [Memory.eq_of_read_eq hm hm' (Memory.tail_read_eq hm hm' hread)]

/-- Settles O31: by induction on both lists, whose first entries must agree. -/
theorem canonicalMemoriesEqualByReads : Obligations.CanonicalMemoriesEqualByReads :=
  fun _ _ h h' hread => Memory.eq_of_read_eq h h' hread

end Sys2Proof.Machine
end

section
/-! PROOFS. Reset (10_state.md R37, 70_reset_and_hazards.md R231): what it leaves in the registers and the memory, and the
invariant there. -/

namespace Sys2Proof.Machine

/-- Writing consecutive bytes sets those addresses alone. -/
theorem Memory.read_writeBytes (bs : List Byte) : ∀ {m : Memory} (a a' : Nat), Memory.wf m = true →
    Memory.read (Memory.writeBytes m a bs) a' =
      if a ≤ a' then (bs[a' - a]?).getD (Memory.read m a') else Memory.read m a' := by
  induction bs with
  | nil => simp [Memory.writeBytes]
  | cons b bs ih =>
    intro m a a' hm
    rw [Memory.writeBytes, ih (a + 1) a' (Memory.wf_write a b hm), Memory.read_write a a' b hm]
    obtain hlt | rfl | hgt := lt_trichotomy a a'
    · have hnext : a' - a = (a' - (a + 1)) + 1 := by omega
      rw [if_pos (Nat.succ_le_of_lt hlt), if_pos hlt.le, if_neg hlt.ne', hnext, List.getElem?_cons_succ]
    · simp
    · rw [if_neg (by omega), if_neg (by omega), if_neg (by omega)]

theorem Memory.below_writeBytes {limit : Nat} : ∀ (bs : List Byte) {m : Memory} (a : Nat), a + bs.length ≤ limit →
    Memory.below limit m = true → Memory.below limit (Memory.writeBytes m a bs) = true
  | [], _, _, _, hm => hm
  | b :: bs, _, a, hfit, hm => by
    rw [List.length_cons] at hfit
    exact Memory.below_writeBytes bs (a + 1) (by omega) (Memory.below_write b (by omega) hm)

theorem readReg_resetWith (c : Config) (image : List Byte) (r : RegIdx) : readReg (State.resetWith c image) r = 0 := by
  simp [readReg, State.resetWith]

/-- R231, decision D25: the image from address 0 up, and 0 past its end. -/
theorem readByte_resetWith (c : Config) (image : List Byte) (a : Nat) :
    readByte (State.resetWith c image) a = (image[a]?).getD 0 := by
  rw [readByte, State.resetWith, Memory.read_writeBytes image 0 a rfl, if_pos (Nat.zero_le a)]
  rfl

/-- Settles O1: registers, memory and the other fields of the reset state, which `State.reset` instantiates. -/
theorem resetGivesSpecifiedState : Obligations.ResetGivesSpecifiedState := fun c image =>
  ⟨readReg_resetWith c image, rfl, rfl, rfl, readByte_resetWith c image, reset_eq_resetWith⟩

/-! ## The invariant -/

theorem inv_iff (s : State) :
    s.inv = true ↔ s.config.wf = true ∧ Memory.wf s.mem = true ∧ Memory.below (presentLimit s.config) s.mem = true ∧
      s.regs[0] = 0 ∧ s.pc.toNat % 2 = 0 := by
  simp [State.inv, and_assoc]

/-- Settles O3: an image that fits is written at present addresses only. -/
theorem resetWithImageSatisfiesInvariant : Obligations.ResetWithImageSatisfiesInvariant := by
  intro c image hwf hfits
  have hlength : 0 + image.length ≤ presentLimit c := by simpa [imageFits] using hfits
  exact (inv_iff _).2 ⟨hwf, resetWith_wf c image, Memory.below_writeBytes image 0 hlength rfl, rfl, rfl⟩

/-- Settles O2: the default parameters are legal, and the empty image fits. -/
theorem resetSatisfiesInvariant : Obligations.ResetSatisfiesInvariant := by
  rw [Obligations.ResetSatisfiesInvariant, reset_eq_resetWith]
  exact resetWithImageSatisfiesInvariant Config.default [] (by decide) (by decide)

end Sys2Proof.Machine
end

section
/-! PROOFS. LW and SW (43_load_store.md R165, R166): the cycle of each in range and out of range, and what a load or a fetch
reads where a word was just put (20_memory.md R60, R66, R69). -/

namespace Sys2Proof.Machine

/-! ## The cycle of each, by its range check -/

theorem exec_lw_inRange (rd : RegIdx) {rs1 : RegIdx} {imm : BitVec 12} {s : State}
    (hr : inRange s.config (effectiveAddress s rs1 imm) = true) :
    exec (.lw rd rs1 imm) s =
      .next (advance none (writeReg s rd (wordAt .big s (effectiveAddress s rs1 imm)))) := by
  simp only [exec, execLw, memRead_inRange hr, finish]

theorem exec_lw_outOfRange (rd : RegIdx) {rs1 : RegIdx} {imm : BitVec 12} {s : State}
    (hr : inRange s.config (effectiveAddress s rs1 imm) = false) :
    exec (.lw rd rs1 imm) s = raise (.memoryOutOfRange s.pc .load (effectiveAddress s rs1 imm)) s := by
  simp only [exec, execLw, memRead_outOfRange hr]

theorem exec_sw_inRange {rs1 : RegIdx} (rs2 : RegIdx) {imm : BitVec 12} {s : State}
    (hr : inRange s.config (effectiveAddress s rs1 imm) = true) :
    exec (.sw rs1 rs2 imm) s =
      .next (advance none (putWord .big s (effectiveAddress s rs1 imm) (readReg s rs2))) := by
  simp only [exec, execSw, memWrite_inRange _ hr, finish]

theorem exec_sw_outOfRange {rs1 : RegIdx} (rs2 : RegIdx) {imm : BitVec 12} {s : State}
    (hr : inRange s.config (effectiveAddress s rs1 imm) = false) :
    exec (.sw rs1 rs2 imm) s = raise (.memoryOutOfRange s.pc .store (effectiveAddress s rs1 imm)) s := by
  simp only [exec, execSw, memWrite_outOfRange _ hr]

/-- The state after an SW that is in range. -/
theorem eq_of_exec_sw {rs1 rs2 : RegIdx} {imm : BitVec 12} {s t : State}
    (hr : inRange s.config (effectiveAddress s rs1 imm) = true) (h : exec (.sw rs1 rs2 imm) s = .next t) :
    t = advance none (putWord .big s (effectiveAddress s rs1 imm) (readReg s rs2)) := by
  rw [exec_sw_inRange rs2 hr] at h
  exact finish_next h

theorem advance_none_writeReg_pc (s : State) (rd : RegIdx) (v : Word) :
    (advance none (writeReg s rd v)).pc = s.pc + 4 := by
  rw [advance_pc, Option.getD_none, writeReg_pc]

/-- Settles O22: the word read is the join of the four bytes, the lowest address first. -/
theorem lwLoadsBigEndianWord : Obligations.LwLoadsBigEndianWord := by
  constructor
  · exact fun _ => decode_of_lwFields
  · intro rd rs1 imm s hr
    exact ⟨_, exec_lw_inRange rd hr, regsAfter_advance_writeReg none s rd _, rfl, advance_none_writeReg_pc s rd _,
      bytesSame_advance_writeReg none s rd _, statusSame_advance_writeReg none s rd _⟩

/-- Settles O23: the error record is the only change. -/
theorem lwOutOfRangeRaises : Obligations.LwOutOfRangeRaises := fun rd _ _ _ hr =>
  ⟨_, exec_lw_outOfRange rd hr, rfl, rfl, fun _ => rfl, fun _ => rfl, rfl⟩

/-- Settles O25: the error record is the only change. -/
theorem swOutOfRangeRaises : Obligations.SwOutOfRangeRaises := fun _ rs2 _ _ hr =>
  ⟨_, exec_sw_outOfRange rs2 hr, rfl, rfl, fun _ => rfl, fun _ => rfl, rfl⟩

/-- Settles O24: each of the four addresses holds its byte of the stored word, and no other address is touched. -/
theorem swStoresBigEndianWord : Obligations.SwStoresBigEndianWord := by
  constructor
  · exact fun _ => decode_of_swFields
  · intro rs1 rs2 imm s hm hr
    have hbyte : ∀ i < 4, readByte (putWord .big s (effectiveAddress s rs1 imm) (readReg s rs2))
        (byteAddress s.config (effectiveAddress s rs1 imm) i) = byteOfWord .big (readReg s rs2) i :=
      fun i hi => readByte_putWord_same .big s _ _ hm hi
    exact ⟨_, exec_sw_inRange rs2 hr, hbyte 0 (by decide), hbyte 1 (by decide), hbyte 2 (by decide),
      hbyte 3 (by decide), fun a ha => readByte_putWord_other .big s _ _ ha, rfl, rfl,
      fun _ => rfl, rfl, rfl⟩

/-! ## Reading a word where a word was put -/

/-- The two byte orders may differ: a store is big-endian, a fetch follows FETCH_BYTE_ORDER. -/
theorem wordAt_putWord (o o' : ByteOrder) (s : State) (addr v : Word) (hm : Memory.wf s.mem = true) :
    wordAt o (putWord o' s addr v) addr =
      wordOfBytes o (byteOfWord o' v 0) (byteOfWord o' v 1) (byteOfWord o' v 2) (byteOfWord o' v 3) := by
  have hbyte : ∀ i < 4, readByte (putWord o' s addr v) (byteAddress s.config addr i) = byteOfWord o' v i :=
    fun i hi => readByte_putWord_same o' s addr v hm hi
  rw [wordAt, putWord_config, hbyte 0 (by decide), hbyte 1 (by decide), hbyte 2 (by decide), hbyte 3 (by decide)]

theorem wordAt_putWord_same (o : ByteOrder) (s : State) (addr v : Word) (hm : Memory.wf s.mem = true) :
    wordAt o (putWord o s addr v) addr = v := by
  rw [wordAt_putWord o o s addr v hm, wordOfBytes_byteOfWord]

/-- A word read depends on the memory and the parameters alone. -/
theorem wordAt_advance (o : ByteOrder) (q : Option Word) (s : State) (addr : Word) :
    wordAt o (advance q s) addr = wordAt o s addr := rfl

/-- A store moves no base register. -/
theorem effectiveAddress_afterStore (q : Option Word) (s : State) (addr v : Word) (rs1 : RegIdx) (imm : BitVec 12) :
    effectiveAddress (advance q (putWord .big s addr v)) rs1 imm = effectiveAddress s rs1 imm := rfl

/-- Settles O28: SW moves no register, so LW reads the word where it was put. -/
theorem loadAfterStoreReturnsWord : Obligations.LoadAfterStoreReturnsWord := by
  intro s t rd rs1 rs2 imm hm hr h
  obtain rfl := eq_of_exec_sw hr h
  refine ⟨_, exec_lw_inRange rd hr, ?_⟩
  rw [effectiveAddress_afterStore, wordAt_advance, wordAt_putWord_same .big s _ _ hm]
  exact regsAfter_advance_writeReg none _ rd _

/-- The bytes of two accesses one address apart, both in range: the second has the first's upper three and one more. -/
theorem byteAddress_succ {c : Config} {addr : Word} (hwf : c.wf = true) (hr : inRange c addr = true) (i : Nat) :
    byteAddress c (addr + 1) i = byteAddress c addr (i + 1) := by
  have hnext : (addr + 1).toNat = (addr.toNat + 1) % 4294967296 := BitVec.toNat_add addr 1
  cases hmode : c.memoryMode with
  | strict =>
    have hsize := ((config_wf_iff c).1 hwf).2
    rw [inRange_strict hmode] at hr
    rw [byteAddress_strict hmode, byteAddress_strict hmode]
    omega
  | sparse =>
    rw [byteAddress_sparse hmode, byteAddress_sparse hmode]
    omega

/-- The byte just above an access is not one of its four. -/
theorem touches_fifth_byte (c : Config) (addr : Word) : touches c addr (byteAddress c addr 4) = false := by
  have hlt := addr.isLt
  cases hmode : c.memoryMode with
  | strict => simp [touches, byteAddress_strict hmode]
  | sparse =>
    simp only [touches, byteAddress_sparse hmode, Bool.or_eq_false_iff, beq_eq_false_iff_ne]
    omega

/-- R60: three bytes of the word put, and the byte above it as it was. -/
theorem wordAt_succ_putWord (s : State) (addr v : Word) (hwf : s.config.wf = true) (hm : Memory.wf s.mem = true)
    (hr : inRange s.config addr = true) :
    wordAt .big (putWord .big s addr v) (addr + 1) =
      v.extractLsb' 0 24 ++ readByte s (byteAddress s.config addr 4) := by
  have hbyte : ∀ i < 4, readByte (putWord .big s addr v) (byteAddress s.config addr i) = byteOfWord .big v i :=
    fun i hi => readByte_putWord_same .big s addr v hm hi
  have hlow : byteOfWord .big v 1 ++ byteOfWord .big v 2 ++ byteOfWord .big v 3 = v.extractLsb' 0 24 := by
    simp (disch := decide) only [byteOfWord, Nat.reduceSub, Nat.reduceMul,
      BitVec.extractLsb'_append_extractLsb'_eq_extractLsb']
  rw [wordAt, putWord_config]
  simp only [byteAddress_succ hwf hr, Nat.reduceAdd]
  rw [hbyte 1 (by decide), hbyte 2 (by decide), hbyte 3 (by decide),
    readByte_putWord_other .big s addr v (touches_fifth_byte s.config addr), ← hlow, wordOfBytes]

/-- Settles O29: SW moves no register, so LW's word is the overlap. -/
theorem overlappingLoadSeesStoredBytes : Obligations.OverlappingLoadSeesStoredBytes := by
  intro s t rd rs1 rs2 rs3 imm imm' hwf hm hr h hea hr'
  obtain rfl := eq_of_exec_sw hr h
  refine ⟨_, exec_lw_inRange rd hr', ?_⟩
  rw [hea, wordAt_advance, wordAt_succ_putWord s _ _ hwf hm hr]
  exact regsAfter_advance_writeReg none _ rd _

/-- Settles O30: SW advances the pc to the word it stored, which the fetch reads in its own order. -/
theorem storeToNextInstructionIsFetched : Obligations.StoreToNextInstructionIsFetched := by
  intro s t rs1 rs2 imm i hs hm hea hr h hd
  rw [← hea] at hr
  obtain rfl := eq_of_exec_sw hr h
  rw [hea] at hr ⊢
  refine step_of_instr hs hr ?_
  rw [← hd]
  exact congrArg decode (wordAt_putWord s.config.fetchOrder .big s (s.pc + 4) (readReg s rs2) hm)

theorem withFetchWord_eq_putWord (s : State) (nbits w : Nat) :
    s.withFetchWord nbits w = putWord s.config.fetchOrder s s.pc (BitVec.ofNat 32 (w % 2 ^ nbits)) := rfl

/-- R58: a word put in FETCH_BYTE_ORDER is the word fetched. -/
theorem fetch_putWord {s : State} {addr : Word} (v : Word) (hm : Memory.wf s.mem = true)
    (hr : inRange s.config addr = true) : fetch (putWord s.config.fetchOrder s addr v) addr = .ok v := by
  rw [fetch_inRange (by rwa [putWord_config]), putWord_config, wordAt_putWord_same _ s addr v hm]

/-- Settles O54: placing is putting the word at the pc, in the order the fetch reads. -/
theorem placedWordIsFetched : Obligations.PlacedWordIsFetched := by
  intro s nbits w hm hr
  rw [withFetchWord_eq_putWord, putWord_pc]
  exact ⟨fetch_putWord _ hm hr, fun a ha => readByte_putWord_other _ s s.pc _ ha, readReg_putWord _ s s.pc _, rfl, rfl,
    rfl⟩

/-! ## Writes to register 0 -/

/-- R21, R22: `readReg_writeReg` with register 0 told apart first. -/
theorem readReg_writeReg_eq_ite (s : State) (i r : RegIdx) (v : Word) :
    readReg (writeReg s i v) r = if r = 0 then 0 else if r = i then v else readReg s r := by
  rw [readReg_writeReg]
  by_cases hr : r = 0
  · rw [if_pos hr, if_neg (fun h => h.2 (h.1 ▸ hr)), hr, readReg_zero]
  · have hcond : (r = i ∧ i ≠ 0) ↔ r = i := and_iff_left_of_imp fun h => h ▸ hr
    simp only [if_neg hr, hcond]

/-- Settles O7: a write sets one register; with register 0 as destination JAL and LW leave their other effects alone. -/
theorem registerWriteThenRead : Obligations.RegisterWriteThenRead := by
  refine ⟨writeReg_zero, fun s i r v => ?_, fun s imm => exec_jal 0 imm s, fun s rs1 imm => ?_⟩
  · exact ⟨readReg_writeReg_eq_ite s i r v, writeReg_pc s i v, writeReg_mem s i v, writeReg_status s i v⟩
  · cases hr : inRange s.config (effectiveAddress s rs1 imm) with
    | true => exact exec_lw_inRange 0 hr
    | false => exact exec_lw_outOfRange 0 hr

end Sys2Proof.Machine
end

section
/-! PROOFS. Values of SLLI, REM and the load-immediate pair (44_integer_immediate.md R176, 45_integer_register.md R192,
30_encoding.md R105), and the state SLLI leaves. -/

namespace Sys2Proof.Machine

/-! ## SLLI -/

/-- Sign extension keeps the low five bits of an immediate. -/
theorem shiftAmount_sext (imm : BitVec 12) : shiftAmount (sext imm) = imm.toNat % 32 := by
  have hlow : (sext imm).extractLsb' 0 5 = imm.extractLsb' 0 5 := by
    apply BitVec.eq_of_getLsbD_eq
    intro k hk
    have hfield : 0 + k < 12 := by omega
    rw [BitVec.getLsbD_extractLsb', BitVec.getLsbD_extractLsb', getLsbD_sext imm (by omega), if_pos hfield]
  rw [shiftAmount, hlow, BitVec.extractLsb'_toNat]
  rfl

theorem toNat_sll (a b : Word) : (sll a b).toNat = a.toNat * 2 ^ shiftAmount b % 2 ^ 32 := by
  rw [sll, BitVec.toNat_shiftLeft, Nat.shiftLeft_eq]

theorem exec_slli (rd rs1 : RegIdx) (imm : BitVec 12) (s : State) :
    exec (.slli rd rs1 imm) s = .next (advance none (writeReg s rd (sll (readReg s rs1) (sext imm)))) := rfl

/-- Settles O33: the shift is a multiplication, and its amount is taken from the field's low bits. -/
theorem slliShiftsLeft : Obligations.SlliShiftsLeft := by
  constructor
  · exact fun _ => decode_of_slliFields
  · intro rd rs1 imm s
    refine exists_next_of_registerWrite (exec_slli rd rs1 imm s) ?_
    rw [toNat_sll, shiftAmount_sext]

/-! ## REM -/

theorem toInt_ne_zero {b : Word} (h : b ≠ 0) : b.toInt ≠ 0 :=
  fun hb => h (BitVec.eq_of_toInt_eq hb)

/-- Settles O40: the bounds of the truncated integer remainder. -/
theorem remainderBounds : Obligations.RemainderBounds := by
  intro a b hb
  rw [toInt_rem32]
  refine ⟨?magnitude, ?sign, Int.dvd_self_sub_tmod⟩
  case magnitude =>
    rw [Int.natAbs_tmod]
    exact Nat.mod_lt _ (Int.natAbs_pos.2 (toInt_ne_zero hb))
  case sign =>
    by_cases hdvd : b.toInt ∣ a.toInt
    · exact .inl (Int.tmod_eq_zero_of_dvd hdvd)
    · right
      rw [Int.sign_tmod, if_neg hdvd]

/-! ## The load-immediate pair -/

/-- LUI's part is the immediate rounded to the nearest multiple of 2^12. -/
theorem toNat_upper_hi20 (imm : Word) :
    (upper (hi20 imm)).toNat = (imm.toNat + 2048) % 4294967296 / 4096 * 4096 := by
  have hsum : (imm + 0x800).toNat = (imm.toNat + 2048) % 4294967296 := BitVec.toNat_add imm 0x800
  rw [upper, hi20, BitVec.toNat_shiftLeft, toNat_zext _ (by decide), BitVec.extractLsb'_toNat, hsum]
  simp only [Nat.shiftLeft_eq, Nat.shiftRight_eq_div_pow]
  omega

/-- ADDI's part is the low twelve bits as a signed number. -/
theorem toInt_lo12 (imm : Word) :
    (lo12 imm).toInt = if imm.toNat % 4096 < 2048 then (imm.toNat % 4096 : Int) else (imm.toNat % 4096 : Int) - 4096 := by
  have hlow : (lo12 imm).toNat = imm.toNat % 4096 := BitVec.extractLsb'_toNat 0 12 imm
  rw [BitVec.toInt_eq_toNat_cond, hlow]
  split_ifs <;> omega

/-- Settles O41: the rounding up in LUI's part makes up for the sign of ADDI's part. -/
theorem loadImmediatePartsAddUp : Obligations.LoadImmediatePartsAddUp := by
  intro imm
  apply BitVec.eq_of_toNat_eq
  have hsum := toNat_add_sext (upper (hi20 imm)) (lo12 imm)
  have hlt := imm.isLt
  rw [toNat_upper_hi20, toInt_lo12] at hsum
  split_ifs at hsum <;> omega

end Sys2Proof.Machine
end

section
/-! PROOFS. What a step can do to each part of the state: errors and the status (60_exceptions.md R203 to R207), the pc
(10_state.md R26, R27), the registers and the memory (R24), and from them the invariant. -/

namespace Sys2Proof.Machine

/-! ## The cycle's ends -/

/-- Settles O42: `step_of_instr`. -/
theorem stepRunsDecodedInstruction : Obligations.StepRunsDecodedInstruction := fun _ _ => step_of_instr

/-- Settles O43: `step_of_fetch_outOfRange`, with the error's state written out. -/
theorem fetchOutOfRangeRaises : Obligations.FetchOutOfRangeRaises := fun _ => step_of_fetch_outOfRange

/-- Settles O18: the status and the pc are the only fields that change. -/
theorem ecallHalts : Obligations.EcallHalts := fun b s =>
  ⟨_, exec_ecall b s, rfl, rfl, regsSame_advance_halt none s, bytesSame_advance_halt none s, rfl⟩

/-- Settles O49: a Running state has a next state, and in any other the cycle answers the fault. -/
theorem stoppedMachineRunsNoCycle : Obligations.StoppedMachineRunsNoCycle := by
  intro s
  constructor
  · intro hfault hs
    obtain ⟨t, ht⟩ := everyRunningStepCompletes s hs
    rw [hfault] at ht
    cases ht
  · intro hs
    cases hstatus : s.status with
    | running => exact absurd hstatus hs
    | halted => simp only [step, cycle, hstatus]
    | error e => simp only [step, cycle, hstatus]

/-! ## Errors -/

theorem errored_iff (s : State) : s.errored = true ↔ ∃ e, s.status = .error e := by
  unfold State.errored
  split <;> simp [*]

/-- The only error an instruction raises is that of a data access out of range, and it commits nothing. -/
theorem exec_error {i : Instr} {s t : State} {e : ErrorRecord} (hs : s.status = .running) (h : exec i s = .next t)
    (he : t.status = .error e) :
    t = { s with status := .error e } ∧
      ∃ kind addr, e = .memoryOutOfRange s.pc kind addr ∧ inRange s.config addr = false := by
  cases exec_effect h with
  | error kind addr hr ht =>
    subst ht
    cases he
    exact ⟨rfl, kind, addr, rfl, hr⟩
  | register rd v o _ ht => simp [ht, hs] at he
  | store rs1 rs2 imm _ _ ht => simp [ht, hs] at he
  | stop b _ ht => simp [ht] at he
  | pcOnly o _ ht => simp [ht, hs] at he

/-- R203, R207: an error of either kind commits nothing, names the pc, and is that of an access out of range or of a word
with no instruction. -/
theorem step_error {s t : State} {e : ErrorRecord} (h : step s = .next t) (he : t.status = .error e) :
    t = { s with status := .error e } ∧
      ((∃ kind addr, e = .memoryOutOfRange s.pc kind addr ∧ inRange s.config addr = false) ∨
        ∃ opcode funct3 funct7, e = .unimplementedInstruction s.pc opcode funct3 funct7) := by
  obtain ⟨hs, hcase⟩ := step_cases h
  cases hcase with
  | fetchError hr ht =>
    subst ht
    cases he
    exact ⟨rfl, .inl ⟨.fetch, s.pc, rfl, hr⟩⟩
  | unimplemented opcode funct3 funct7 _ _ ht =>
    subst ht
    cases he
    exact ⟨rfl, .inr ⟨opcode, funct3, funct7, rfl⟩⟩
  | instruction i _ _ hexec =>
    obtain ⟨ht, hrecord⟩ := exec_error hs hexec he
    exact ⟨ht, .inl hrecord⟩

/-- Settles O45: both kinds of record name the pc of the state before. -/
theorem errorsCommitNothing : Obligations.ErrorsCommitNothing := by
  intro s t e h he
  obtain ⟨ht, ⟨kind, addr, hrecord, -⟩ | ⟨opcode, funct3, funct7, hrecord⟩⟩ := step_error h he
  · exact ⟨ht, hrecord ▸ rfl⟩
  · exact ⟨ht, hrecord ▸ rfl⟩

/-- Settles O27: a MemoryOutOfRange error needs an access out of range, and sparse mode has none. -/
theorem sparseModeNeverOutOfRange : Obligations.SparseModeNeverOutOfRange := by
  intro s t hmode h pc addr kind he
  obtain ⟨-, ⟨kind', addr', -, hr⟩ | ⟨opcode, funct3, funct7, hrecord⟩⟩ := step_error h he
  · rw [inRange_sparse hmode] at hr
    cases hr
  · cases hrecord

/-! ## The status -/

theorem exec_status {i : Instr} {s t : State} (hs : s.status = .running) (hr : inRange s.config s.pc = true)
    (hd : decode (fetchedWord s) = .instr i) (h : exec i s = .next t) : t.status = statusAfter s := by
  rw [statusAfter, hr, if_neg (by decide), hd]
  cases i with
  | ecall b => rw [finish_next h]; rfl
  | lw rd rs1 imm =>
    cases hdata : inRange s.config (effectiveAddress s rs1 imm) with
    | true =>
      rw [exec_lw_inRange rd hdata] at h
      rw [finish_next h]
      simp [hs, hdata]
    | false =>
      rw [exec_lw_outOfRange rd hdata] at h
      rw [raise_next h]
      simp [hdata]
  | sw rs1 rs2 imm =>
    cases hdata : inRange s.config (effectiveAddress s rs1 imm) with
    | true =>
      rw [eq_of_exec_sw hdata h]
      simp [hs, hdata]
    | false =>
      rw [exec_sw_outOfRange rs2 hdata] at h
      rw [raise_next h]
      simp [hdata]
  | _ => rw [finish_next h]; simp [hs]

/-- Settles O46: the fetch raises, the word is UNIMPL and raises, or the instruction decides. -/
theorem statusAfterStep : Obligations.StatusAfterStep := by
  intro s t h
  obtain ⟨hs, hcase⟩ := step_cases h
  cases hcase with
  | fetchError hr ht => rw [ht, statusAfter, if_pos hr]
  | unimplemented opcode funct3 funct7 hr hd ht =>
    rw [ht, statusAfter, hr, if_neg (by decide), fetchedWord, hd]
  | instruction i hr hd hexec => exact exec_status hs hr hd hexec

/-- Settles O20: no instruction but ECALL halts, and ECALL is dispatched by the SYSTEM opcode. -/
theorem haltOnlyBySystemWord : Obligations.HaltOnlyBySystemWord := by
  intro s t h hhalted
  obtain ⟨hs, hcase⟩ := step_cases h
  cases hcase with
  | fetchError _ ht => simp [ht] at hhalted
  | unimplemented opcode funct3 funct7 _ _ ht => simp [ht] at hhalted
  | instruction i hr hd hexec =>
    cases exec_effect hexec with
    | stop b hi _ =>
      subst hi
      exact ⟨hr, (dispatchOp_eq_ecall (fetchedWord s)).1 (dispatchOp_of_decode hd)⟩
    | error kind addr _ ht => simp [ht] at hhalted
    | register rd v o _ ht => simp [ht, hs] at hhalted
    | store rs1 rs2 imm _ _ ht => simp [ht, hs] at hhalted
    | pcOnly o _ ht => simp [ht, hs] at hhalted

theorem driverPass_iff (s : State) : s.driverPass = true ↔ s.status = .halted ∧ readReg s 10 = 1 := by
  rw [State.driverPass, Bool.and_eq_true, decide_eq_true_eq, beq_iff_eq]
  rfl

/-- Settles O55: ECALL halts and moves no register; an error's status is not Halted. -/
theorem driverPassAtEnd : Obligations.DriverPassAtEnd := by
  constructor
  · intro b s t h
    rw [exec_ecall] at h
    rw [finish_next h, driverPass_iff, readReg_advance, readReg_halt]
    exact and_iff_right rfl
  · intro s t _ herr
    obtain ⟨e, he⟩ := (errored_iff t).1 herr
    rw [← Bool.not_eq_true, driverPass_iff, he]
    exact fun ⟨hhalted, _⟩ => Status.noConfusion hhalted

/-! ## The pc -/

theorem exec_pc {i : Instr} {s t : State} (hd : decode (fetchedWord s) = .instr i) (h : exec i s = .next t)
    (hok : t.errored = false) : t.pc = pcAfter s := by
  rw [pcAfter, hd]
  cases i with
  | jal rd imm => rw [finish_next h]; rfl
  | beq rs1 rs2 imm =>
    rw [finish_next h]
    simp only [advance_branchTarget_pc, cmpEq_iff]
  | bne rs1 rs2 imm =>
    rw [finish_next h]
    simp only [advance_branchTarget_pc, Bool.not_eq_true', ← Bool.not_eq_true, cmpEq_iff, ne_eq]
  | lw rd rs1 imm =>
    cases hdata : inRange s.config (effectiveAddress s rs1 imm) with
    | true =>
      rw [exec_lw_inRange rd hdata] at h
      rw [finish_next h, advance_none_writeReg_pc]
    | false =>
      rw [exec_lw_outOfRange rd hdata] at h
      rw [raise_next h] at hok
      cases hok
  | sw rs1 rs2 imm =>
    cases hdata : inRange s.config (effectiveAddress s rs1 imm) with
    | true => rw [eq_of_exec_sw hdata h]; rfl
    | false =>
      rw [exec_sw_outOfRange rs2 hdata] at h
      rw [raise_next h] at hok
      cases hok
  | _ => rw [finish_next h]; simp

/-- Settles O47: a cycle without an error runs an instruction, which decides the pc. -/
theorem pcAfterStep : Obligations.PcAfterStep := by
  intro s t h hok
  obtain ⟨-, hcase⟩ := step_cases h
  cases hcase with
  | fetchError _ ht => subst ht; cases hok
  | unimplemented opcode funct3 funct7 _ _ ht => subst ht; cases hok
  | instruction i _ hd hexec => exact exec_pc hd hexec hok

theorem add_four_even {a : Word} (h : a.toNat % 2 = 0) : (a + 4).toNat % 2 = 0 := by
  have hsum : (a + 4).toNat = (a.toNat + 4) % 4294967296 := BitVec.toNat_add a 4
  omega

theorem add_sext_even {n : Nat} {a : Word} {f : BitVec n} (hn : n ≠ 0) (h : a.toNat % 2 = 0)
    (hf : evenOffset f = true) : (a + sext f).toNat % 2 = 0 := by
  have hsum := toNat_add_sext a f
  have hvalue := toInt_even_of_evenOffset hn hf
  omega

/-- R27, decision D11: a decoded offset is even, because a decoded instruction is well formed. -/
theorem pcAfter_even {s : State} (h : s.pc.toNat % 2 = 0) : (pcAfter s).toNat % 2 = 0 := by
  rw [pcAfter]
  cases hd : decode (fetchedWord s) with
  | unimplemented opcode funct3 funct7 => exact add_four_even h
  | instr i =>
    have hwf := (encodeDecodeRoundTrip _ _ hd).1
    cases i with
    | jal rd imm => exact add_sext_even (by decide) h hwf
    | beq rs1 rs2 imm =>
      dsimp only
      split_ifs
      · exact add_sext_even (by decide) h hwf
      · exact add_four_even h
    | bne rs1 rs2 imm =>
      dsimp only
      split_ifs
      · exact add_sext_even (by decide) h hwf
      · exact add_four_even h
    | _ => exact add_four_even h

/-- Settles O5: an error keeps the pc, and any other cycle leaves `pcAfter`. -/
theorem pcStaysEven : Obligations.PcStaysEven := by
  intro s t heven h
  cases herr : t.errored with
  | true =>
    obtain ⟨e, he⟩ := (errored_iff t).1 herr
    rwa [(step_error h he).1]
  | false =>
    rw [pcAfterStep s t h herr]
    exact pcAfter_even heven

/-! ## Parameters, registers, memory -/

/-- Settles O6: no update of the state touches the parameters. -/
theorem stepKeepsParameters : Obligations.StepKeepsParameters := by
  intro s t h
  obtain ⟨-, hcase⟩ := step_cases h
  cases hcase with
  | fetchError _ ht => rw [ht]
  | unimplemented opcode funct3 funct7 _ _ ht => rw [ht]
  | instruction i _ _ hexec =>
    cases exec_effect hexec with
    | error kind addr _ ht => rw [ht]
    | register rd v o _ ht => rw [ht, advance_config, writeReg_config]
    | store rs1 rs2 imm _ _ ht => rw [ht, advance_config, putWord_config]
    | stop b _ ht => rw [ht, advance_config, halt_config]
    | pcOnly o _ ht => rw [ht, advance_config]

/-- R24: a step writes no register, or the destination of the instruction it runs. -/
theorem step_regs {s t : State} (h : step s = .next t) :
    t.regs = s.regs ∨ ∃ i rd v, inRange s.config s.pc = true ∧ decode (fetchedWord s) = .instr i ∧
      i.writes = some rd ∧ t.regs = (writeReg s rd v).regs := by
  obtain ⟨-, hcase⟩ := step_cases h
  cases hcase with
  | fetchError _ ht => exact .inl (ht ▸ rfl)
  | unimplemented opcode funct3 funct7 _ _ ht => exact .inl (ht ▸ rfl)
  | instruction i hr hd hexec =>
    cases exec_effect hexec with
    | error kind addr _ ht => exact .inl (ht ▸ rfl)
    | register rd v o hw ht => exact .inr ⟨i, rd, v, hr, hd, hw, ht ▸ rfl⟩
    | store rs1 rs2 imm _ _ ht => exact .inl (ht ▸ rfl)
    | stop b _ ht => exact .inl (ht ▸ rfl)
    | pcOnly o _ ht => exact .inl (ht ▸ rfl)

/-- R24, R130: a step stores nothing, or runs an SW that is in range. -/
theorem step_mem {s t : State} (h : step s = .next t) :
    t.mem = s.mem ∨ ∃ rs1 rs2 imm, decode (fetchedWord s) = .instr (.sw rs1 rs2 imm) ∧
      inRange s.config (effectiveAddress s rs1 imm) = true ∧
      t.mem = (putWord .big s (effectiveAddress s rs1 imm) (readReg s rs2)).mem := by
  obtain ⟨-, hcase⟩ := step_cases h
  cases hcase with
  | fetchError _ ht => exact .inl (ht ▸ rfl)
  | unimplemented opcode funct3 funct7 _ _ ht => exact .inl (ht ▸ rfl)
  | instruction i _ hd hexec =>
    cases exec_effect hexec with
    | error kind addr _ ht => exact .inl (ht ▸ rfl)
    | register rd v o _ ht => exact .inl (by rw [ht, advance_mem, writeReg_mem])
    | store rs1 rs2 imm hi hr ht => exact .inr ⟨rs1, rs2, imm, hi ▸ hd, hr, ht ▸ rfl⟩
    | stop b _ ht => exact .inl (ht ▸ rfl)
    | pcOnly o _ ht => exact .inl (ht ▸ rfl)

/-- Settles O50: a register that reads differently is the one written, and not register 0. -/
theorem stepWritesOnlyDestination : Obligations.StepWritesOnlyDestination := by
  intro s t r h hne
  obtain hregs | ⟨i, rd, v, hr, hd, hw, hregs⟩ := step_regs h
  · exact absurd (readReg_congr hregs r) hne
  · rw [readReg_congr hregs r, readReg_writeReg] at hne
    obtain ⟨rfl, hzero⟩ : r = rd ∧ rd ≠ 0 := by
      by_contra hother
      exact hne (if_neg hother)
    exact ⟨i, hr, hd, hw, hzero⟩

/-- Settles O51: a byte that reads differently is one that the SW touches. -/
theorem stepStoresOnlyBySw : Obligations.StepStoresOnlyBySw := by
  intro s t a h hne
  obtain hmem | ⟨rs1, rs2, imm, hd, hr, hmem⟩ := step_mem h
  · exact absurd (congrArg (Memory.read · a) hmem) hne
  · refine ⟨rs1, rs2, imm, hd, hr, ?_⟩
    by_contra htouches
    rw [Bool.not_eq_true] at htouches
    exact hne ((congrArg (Memory.read · a) hmem).trans (readByte_putWord_other .big s _ _ htouches))

/-! ## The invariant -/

/-- A store in range lists present addresses only. -/
theorem putWord_below (o : ByteOrder) {s : State} {addr : Word} (v : Word) (hr : inRange s.config addr = true)
    (hm : Memory.below (presentLimit s.config) s.mem = true) :
    Memory.below (presentLimit s.config) (putWord o s addr v).mem = true := by
  have hlt : ∀ i < 4, byteAddress s.config addr i < presentLimit s.config :=
    fun i hi => byteAddress_lt_presentLimit hr hi
  exact Memory.below_write _ (hlt 3 (by decide)) (Memory.below_write _ (hlt 2 (by decide))
    (Memory.below_write _ (hlt 1 (by decide)) (Memory.below_write _ (hlt 0 (by decide)) hm)))

theorem step_keeps_memory {s t : State} (h : step s = .next t) (hwf : Memory.wf s.mem = true)
    (hbelow : Memory.below (presentLimit s.config) s.mem = true) :
    Memory.wf t.mem = true ∧ Memory.below (presentLimit s.config) t.mem = true := by
  obtain hmem | ⟨rs1, rs2, imm, -, hr, hmem⟩ := step_mem h
  · rw [hmem]
    exact ⟨hwf, hbelow⟩
  · rw [hmem]
    exact ⟨putWord_wf .big s _ _ hwf, putWord_below .big _ hr hbelow⟩

theorem step_keeps_slotZero {s t : State} (h : step s = .next t) : t.regs[0] = s.regs[0] := by
  obtain hregs | ⟨i, rd, v, -, -, -, hregs⟩ := step_regs h
  · rw [hregs]
  · rw [hregs, writeReg_regs_zero]

/-- Settles O4: part by part, each from the lemma on what a step does to it. -/
theorem stepKeepsInvariant : Obligations.StepKeepsInvariant := by
  intro s t hinv h
  obtain ⟨hconfig, hwf, hbelow, hslot, hpc⟩ := (inv_iff s).1 hinv
  obtain ⟨hwf', hbelow'⟩ := step_keeps_memory h hwf hbelow
  rw [inv_iff, stepKeepsParameters s t h, step_keeps_slotZero h]
  exact ⟨hconfig, hwf', hbelow', hslot, pcStaysEven s t hpc h⟩

end Sys2Proof.Machine
end

section
/-! PROOFS. Noninterference (10_state.md R24): an instruction's result depends on the registers it reads, the pc, the memory
and the parameters alone. -/

namespace Sys2Proof.Machine

/-- Two states that an instruction reading the registers `rs` cannot tell apart. -/
structure SameOn (rs : List RegIdx) (s s' : State) : Prop where
  pc : s'.pc = s.pc
  mem : s'.mem = s.mem
  config : s'.config = s.config
  status : s'.status = s.status
  regs : ∀ r ∈ rs, readReg s' r = readReg s r

/-- From `s'` the instruction gives what it gave in `t`: pc, memory, status and, without an error, the value written. -/
def SameResult (i : Instr) (s' t : State) : Prop :=
  ∃ t', exec i s' = .next t' ∧ t'.pc = t.pc ∧ t'.mem = t.mem ∧ t'.status = t.status ∧
    ∀ r, i.writes = some r → t.errored = false → readReg t' r = readReg t r

theorem effectiveAddress_sameOn {rs : List RegIdx} {s s' : State} (h : SameOn rs s s') {rs1 : RegIdx} (hrs1 : rs1 ∈ rs)
    (imm : BitVec 12) : effectiveAddress s' rs1 imm = effectiveAddress s rs1 imm := by
  rw [effectiveAddress, effectiveAddress, h.regs rs1 hrs1]

theorem wordAt_sameOn {rs : List RegIdx} {s s' : State} (h : SameOn rs s s') (o : ByteOrder) (addr : Word) :
    wordAt o s' addr = wordAt o s addr := by
  simp only [wordAt, readByte, h.config, h.mem]

theorem putWord_mem_sameOn {rs : List RegIdx} {s s' : State} (h : SameOn rs s s') (o : ByteOrder) (addr v : Word) :
    (putWord o s' addr v).mem = (putWord o s addr v).mem := by
  simp only [putWord, h.config, h.mem]

/-- The register written reads alike after the same write, register 0 included. -/
theorem readReg_writeReg_destination (s s' : State) (rd : RegIdx) (v : Word) :
    readReg (writeReg s' rd v) rd = readReg (writeReg s rd v) rd := by
  by_cases hrd : rd = 0
  · rw [hrd, readReg_zero, readReg_zero]
  · rw [readReg_writeReg, readReg_writeReg, if_pos ⟨rfl, hrd⟩, if_pos ⟨rfl, hrd⟩]

/-- The instructions that end in a register write, LW in range included. -/
theorem sameResult_of_registerWrite {rs : List RegIdx} {i : Instr} {s s' t : State} {rd : RegIdx} {v : Word}
    {o : Option Word} (h : SameOn rs s s') (hw : i.writes = some rd) (ht : t = advance o (writeReg s rd v))
    (hexec : exec i s' = .next (advance o (writeReg s' rd v))) : SameResult i s' t := by
  subst ht
  refine ⟨_, hexec, by simp [h.pc], by simp [h.mem], by simp [h.status], fun r hr _ => ?_⟩
  obtain rfl : rd = r := Option.some.inj (hw.symm.trans hr)
  exact readReg_writeReg_destination s s' rd v

/-- The instructions that move the pc alone. -/
theorem sameResult_of_pcOnly {rs : List RegIdx} {i : Instr} {s s' t : State} {o : Option Word} (h : SameOn rs s s')
    (hw : i.writes = none) (ht : t = advance o s) (hexec : exec i s' = .next (advance o s')) : SameResult i s' t := by
  subst ht
  exact ⟨_, hexec, by simp [h.pc], h.mem, h.status, fun r hr _ => absurd (hw.symm.trans hr) (by simp)⟩

/-- A load or store out of range: the error records agree, and no register is compared. -/
theorem sameResult_of_raise {rs : List RegIdx} {i : Instr} {s s' t : State} {e : ErrorRecord} (h : SameOn rs s s')
    (ht : t = { s with status := .error e }) (hexec : exec i s' = raise e s') : SameResult i s' t := by
  subst ht
  exact ⟨_, hexec, h.pc, h.mem, rfl, fun r _ hok => Bool.noConfusion hok⟩

theorem sameResult_lw {rd rs1 : RegIdx} {imm : BitVec 12} {s s' t : State}
    (h : SameOn [rs1] s s') (ht : exec (.lw rd rs1 imm) s = .next t) : SameResult (.lw rd rs1 imm) s' t := by
  have hea : effectiveAddress s' rs1 imm = effectiveAddress s rs1 imm :=
    effectiveAddress_sameOn h (List.mem_singleton_self rs1) imm
  cases hr : inRange s.config (effectiveAddress s rs1 imm) with
  | true =>
    rw [exec_lw_inRange rd hr] at ht
    refine sameResult_of_registerWrite h rfl (finish_next ht) ?_
    rw [exec_lw_inRange rd (by rwa [hea, h.config]), hea, wordAt_sameOn h]
  | false =>
    rw [exec_lw_outOfRange rd hr] at ht
    refine sameResult_of_raise h (raise_next ht) ?_
    rw [exec_lw_outOfRange rd (by rwa [hea, h.config]), hea, h.pc]

theorem sameResult_sw {rs1 rs2 : RegIdx} {imm : BitVec 12} {s s' t : State}
    (h : SameOn [rs1, rs2] s s') (ht : exec (.sw rs1 rs2 imm) s = .next t) : SameResult (.sw rs1 rs2 imm) s' t := by
  have hea : effectiveAddress s' rs1 imm = effectiveAddress s rs1 imm := effectiveAddress_sameOn h (by simp) imm
  cases hr : inRange s.config (effectiveAddress s rs1 imm) with
  | true =>
    obtain rfl := eq_of_exec_sw hr ht
    refine ⟨_, exec_sw_inRange rs2 (by rwa [hea, h.config]), ?_, ?_, h.status, nofun⟩
    · simp [h.pc]
    · rw [hea, h.regs rs2 (by simp), advance_mem, advance_mem, putWord_mem_sameOn h]
  | false =>
    rw [exec_sw_outOfRange rs2 hr] at ht
    refine sameResult_of_raise h (raise_next ht) ?_
    rw [exec_sw_outOfRange rs2 (by rwa [hea, h.config]), hea, h.pc]

theorem pcTarget_sameOn {rs : List RegIdx} {s s' : State} (h : SameOn rs s s') {n : Nat} (imm : BitVec n) :
    pcTarget s' imm = pcTarget s imm := by
  rw [pcTarget, pcTarget, h.pc]

theorem branchTarget_sameOn {rs : List RegIdx} {s s' : State} (h : SameOn rs s s') (taken : Bool) (imm : BitVec 13) :
    branchTarget taken imm s' = branchTarget taken imm s := by
  rw [branchTarget, branchTarget, pcTarget_sameOn h]

theorem exec_sameOn {i : Instr} {s s' t : State} (h : SameOn i.reads s s') (ht : exec i s = .next t) :
    SameResult i s' t := by
  cases i with
  | jal rd imm =>
    refine sameResult_of_registerWrite h rfl (finish_next ht) ?_
    rw [exec_jal, pcTarget_sameOn h, link, h.pc, link]
  | ecall b =>
    rw [exec_ecall] at ht
    rw [finish_next ht]
    exact ⟨_, exec_ecall b s', by simp [h.pc], h.mem, rfl, nofun⟩
  | beq rs1 rs2 imm =>
    refine sameResult_of_pcOnly h rfl (finish_next ht) ?_
    rw [exec_beq, branchTarget_sameOn h, h.regs rs1 (by simp [Instr.reads]), h.regs rs2 (by simp [Instr.reads])]
  | bne rs1 rs2 imm =>
    refine sameResult_of_pcOnly h rfl (finish_next ht) ?_
    rw [exec_bne, branchTarget_sameOn h, h.regs rs1 (by simp [Instr.reads]), h.regs rs2 (by simp [Instr.reads])]
  | lw rd rs1 imm => exact sameResult_lw h ht
  | sw rs1 rs2 imm => exact sameResult_sw h ht
  | addi rd rs1 imm =>
    refine sameResult_of_registerWrite h rfl (finish_next ht) ?_
    rw [exec_addi, h.regs rs1 (by simp [Instr.reads])]
  | slli rd rs1 imm =>
    refine sameResult_of_registerWrite h rfl (finish_next ht) ?_
    rw [exec_slli, h.regs rs1 (by simp [Instr.reads])]
  | ori rd rs1 imm =>
    refine sameResult_of_registerWrite h rfl (finish_next ht) ?_
    rw [exec_ori, h.regs rs1 (by simp [Instr.reads])]
  | lui rd imm => exact sameResult_of_registerWrite h rfl (finish_next ht) (exec_lui rd imm s')
  | auipc rd imm =>
    refine sameResult_of_registerWrite h rfl (finish_next ht) ?_
    rw [exec_auipc, h.pc]
  | xor rd rs1 rs2 =>
    refine sameResult_of_registerWrite h rfl (finish_next ht) ?_
    rw [exec_xor, h.regs rs1 (by simp [Instr.reads]), h.regs rs2 (by simp [Instr.reads])]
  | srl rd rs1 rs2 =>
    refine sameResult_of_registerWrite h rfl (finish_next ht) ?_
    rw [exec_srl, h.regs rs1 (by simp [Instr.reads]), h.regs rs2 (by simp [Instr.reads])]
  | rem rd rs1 rs2 =>
    refine sameResult_of_registerWrite h rfl (finish_next ht) ?_
    rw [exec_rem, h.regs rs1 (by simp [Instr.reads]), h.regs rs2 (by simp [Instr.reads])]
  | gap => exact sameResult_of_pcOnly h rfl (finish_next ht) (exec_gap s')

/-- Settles O52: every operand of the result is read from the parts in which the two states agree. -/
theorem execReadsOnlyNamedRegisters : Obligations.ExecReadsOnlyNamedRegisters :=
  fun _ _ _ _ hs hs' hpc hmem hconfig hregs ht => exec_sameOn ⟨hpc, hmem, hconfig, hs'.trans hs.symm, hregs⟩ ht

end Sys2Proof.Machine
end

section
/-! PROOFS. The datapath (40_cycle_and_datapath.md R130 to R136) computes what the instruction rules give. -/

namespace Sys2Proof.Machine

/-! ## The data phase, by the range check (R135) -/

theorem datapath_load_inRange {c : Control} {r : InstrRecord} {s : State} (hk : c.memKind = some .load)
    (hr : inRange s.config (aluY c r s) = true) :
    datapath c r s = commit c r (wordAt .big s (aluY c r s)) s s := by
  simp only [datapath, hk, memRead_inRange hr]

theorem datapath_load_outOfRange {c : Control} {r : InstrRecord} {s : State} (hk : c.memKind = some .load)
    (hr : inRange s.config (aluY c r s) = false) :
    datapath c r s = raise (.memoryOutOfRange s.pc .load (aluY c r s)) s := by
  simp only [datapath, hk, memRead_outOfRange hr]

theorem datapath_store_inRange {c : Control} {r : InstrRecord} {s : State} (hk : c.memKind = some .store)
    (hr : inRange s.config (aluY c r s) = true) :
    datapath c r s = commit c r 0 s (putWord .big s (aluY c r s) (readReg s r.rs2)) := by
  simp only [datapath, hk, memWrite_inRange _ hr]

theorem datapath_store_outOfRange {c : Control} {r : InstrRecord} {s : State} (hk : c.memKind = some .store)
    (hr : inRange s.config (aluY c r s) = false) :
    datapath c r s = raise (.memoryOutOfRange s.pc .store (aluY c r s)) s := by
  simp only [datapath, hk, memWrite_outOfRange _ hr]

/-! ## The instruction rules' states, with the next pc computed from the state before the cycle (R136) -/

theorem advance_writeReg_eq (o : Option Word) (s : State) (rd : RegIdx) (v : Word) :
    advance o (writeReg s rd v) = { writeReg s rd v with pc := o.getD (s.pc + 4) } := by
  rw [advance, writeReg_pc]

theorem advance_branchTarget_eq (taken : Bool) (imm : BitVec 13) (s : State) :
    advance (branchTarget taken imm s) s = { s with pc := if taken then s.pc + sext imm else s.pc + 4 } := by
  cases taken <;> rfl

theorem datapath_lw (w : Word) (s : State) :
    datapath (controlRow .lw) (record .I w) s = exec (.lw (rdOf w) (rs1Of w) (fieldI w)) s := by
  cases hr : inRange s.config (effectiveAddress s (rs1Of w) (fieldI w)) with
  | true =>
    rw [datapath_load_inRange rfl hr, exec_lw_inRange _ hr, advance_writeReg_eq]
    rfl
  | false =>
    rw [datapath_load_outOfRange rfl hr, exec_lw_outOfRange _ hr]
    rfl

theorem datapath_sw (w : Word) (s : State) :
    datapath (controlRow .sw) (record .S w) s = exec (.sw (rs1Of w) (rs2Of w) (fieldS w)) s := by
  cases hr : inRange s.config (effectiveAddress s (rs1Of w) (fieldS w)) with
  | true =>
    rw [datapath_store_inRange rfl hr, exec_sw_inRange _ hr]
    rfl
  | false =>
    rw [datapath_store_outOfRange rfl hr, exec_sw_outOfRange _ hr]
    rfl

/-- Settles O53: row by row, the values that the row selects are those the instruction rule names. -/
theorem datapathComputesInstructionRules : Obligations.DatapathComputesInstructionRules := by
  intro w i s h
  rw [datapathWord, dispatch]
  cases hop : dispatchOp w <;> simp only [decode, hop, reduceCtorEq, Decoded.instr.injEq] at h <;> subst h
  case jal => rw [exec_jal, advance_writeReg_eq]; rfl
  case ecall => rfl
  case beq => rw [exec_beq, advance_branchTarget_eq]; rfl
  case bne => rw [exec_bne, advance_branchTarget_eq]; rfl
  case lw => exact datapath_lw w s
  case sw => exact datapath_sw w s
  case addi => rw [exec_addi, advance_writeReg_eq]; rfl
  case slli => rw [exec_slli, advance_writeReg_eq]; rfl
  case ori => rw [exec_ori, advance_writeReg_eq]; rfl
  case lui => rw [exec_lui, advance_writeReg_eq]; rfl
  case auipc => rw [exec_auipc, advance_writeReg_eq]; rfl
  case xor => rw [exec_xor, advance_writeReg_eq]; rfl
  case srl => rw [exec_srl, advance_writeReg_eq]; rfl
  case rem => rw [exec_rem, advance_writeReg_eq]; rfl
  case gap => rfl

end Sys2Proof.Machine
end
